-- ==== Sys2Proof/Word.lean ====
section
/-! DEFINITION. The word types of XOFCODEC (00_scope.md R12). -/

namespace Sys2Proof

/-- A byte is 8 bits (R12). -/
abbrev Byte := BitVec 8

/-- A command word or a register of the host window: 32 bits (R40 to R44, R100). -/
abbrev Word := BitVec 32

/-- One coefficient: an int16, 16 bits read as two's complement (R12, R37). -/
abbrev Coef := BitVec 16

/-- A lane of the Keccak state: 64 bits (R150). -/
abbrev Lane := BitVec 64

/-- A bit string, first bit first (R12, R15). -/
abbrev Bits := List Bool

end Sys2Proof
end

