-- ==== Sys2Proof/Config.lean ====
section
/-! DEFINITION. The parameters of XOFCODEC v1 (00_scope.md R10, R11) and the named parameters the spec leaves OPEN
(93_implementation_defined.md part 3; log entry 19). The block leaves no RESULT open, so there is no free value here. -/

namespace Sys2Proof.Config

/-- log2 of the degree (R10). -/
@[simp] def logN : Nat := 10

/-- Coefficients per vector (R10). -/
@[simp] def n : Nat := 1024

/-- Bits per coefficient in the constant-time format (R10, R21). -/
@[simp] def ctBits : Nat := 12

/-- Bytes of a constant-time stream (R10, R21). -/
@[simp] def ctLen : Nat := 1536

/-- Largest magnitude either codec accepts (R10). -/
@[simp] def coefMax : Nat := 2047

/-- Bytes of an XOF.SEED seed (R10). -/
@[simp] def seedLen : Nat := 48

/-- XOF contexts (R10). -/
@[simp] def numCtx : Nat := 4

/-- Bytes of BUF (R10). -/
@[simp] def bufBytes : Nat := 4096

/-- Bytes of COEF seen through the window, two an entry (R73). -/
@[simp] def coefBytes : Nat := 2048

/-- SHAKE256's rate in bytes (R10, R150). -/
@[simp] def rate : Nat := 136

/-- compressedSigMaxSize: OPEN, with the spec's default (R10, D42). PRESUMED, log entry 19; only COMP.ENC.SIG uses it. -/
@[simp] def compSigMax : Nat := 1462

/-- Bytes a compressed stream may take in a signature (R22). -/
@[simp] def compStreamMax : Nat := compSigMax - 41

/-- Bytes of the host window (R70). -/
@[simp] def windowBytes : Nat := 0x4000

/-- PARAM, bits 3:0 LOGN, 7:4 NUM_CTX, 12:8 CT_BITS, 31:16 BUF_BYTES / 16 (R43). -/
def paramWord : Word := BitVec.ofNat 32 (bufBytes / 16 * 2 ^ 16 + ctBits * 2 ^ 8 + numCtx * 2 ^ 4 + logN)

/-- XOFCODEC_BASE, where the platform puts the window: OPEN (R70, D49). Log entry 19. -/
opaque xofcodecBase : Nat

/-- CURRENT_SALT_VERSION: OPEN, and the block never uses it (R17, D43). Log entry 19. -/
opaque currentSaltVersion : Byte

/-- CMD_LATENCY_MAX: OPEN, and no rule uses it (R280, D40). Log entry 19. -/
opaque cmdLatencyMax : Nat

/-- The host's physical address of window offset `o` (R70). -/
def windowAddress (o : Nat) : Nat := xofcodecBase + o

end Sys2Proof.Config
end

