-- ==== Sys2Proof/Syntax.lean ====
section
/-! DEFINITION. The twelve commands (30_encoding.md R104), one constructor per row of spec/opcode_table.json. -/

namespace Sys2Proof

/-- The number of an XOF context, c0 to c3 (R102, R110). -/
abbrev CtxId := Fin 4

/-- A command. `c` is the CTX field, `a` the ADDR field, `l` the LEN field, each an unsigned integer (R102); the bounds
of `a` and `l` are `Instr.wellFormed`. A field the command does not use has no operand here (R103). -/
inductive Instr where
  | xofInit (c : CtxId)
  | xofAbsorb (c : CtxId) (a l : Nat)
  | xofFinal (c : CtxId)
  | xofSqueeze (c : CtxId) (a l : Nat)
  | xofSeed (c : CtxId) (a l : Nat)
  | xofClear (c : CtxId)
  | compDec (a l : Nat)
  | ctEnc (a l : Nat)
  | compEnc (a l : Nat)
  | ctDec (a l : Nat)
  | bufZero (a l : Nat)
  | coefZero
  deriving DecidableEq, Repr

end Sys2Proof
end

