-- ==== Sys2Proof/WellFormed.lean ====
section
/-! DEFINITION. Which commands a 32-bit word can hold (30_encoding.md R100, R102). -/

namespace Sys2Proof

/-- An ADDR or LEN operand fits its field of 12 bits (R100). -/
def fits12 (x : Nat) : Bool := decide (x < 4096)

/-- Every operand fits its field. CTX fits by its type. XOF.SEED's LEN may hold any value here: that it is 48 is checked
when the command runs (R103, R145). -/
def Instr.wellFormed : Instr → Bool
  | .xofInit _ => true
  | .xofAbsorb _ a l => fits12 a && fits12 l
  | .xofFinal _ => true
  | .xofSqueeze _ a l => fits12 a && fits12 l
  | .xofSeed _ a l => fits12 a && fits12 l
  | .xofClear _ => true
  | .compDec a l => fits12 a && fits12 l
  | .ctEnc a l => fits12 a && fits12 l
  | .compEnc a l => fits12 a && fits12 l
  | .ctDec a l => fits12 a && fits12 l
  | .bufZero a l => fits12 a && fits12 l
  | .coefZero => true

end Sys2Proof
end

