-- ==== Sys2Proof/Decode.lean ====
section
/-! DEFINITION. The decoder, total on every 32-bit word (30_encoding.md R101, R108), then the encoder (R100, R104) and the
match and mask table (R109). -/

namespace Sys2Proof

/-- Why a word is no command (R106). Safe: ENGINE answers either with ILLEGAL, as the spec says. -/
inductive DecodeError where
  /-- OP is not in the table of R104. -/
  | unassignedOp
  /-- OP is assigned and a field marked "must be 0" is not zero. -/
  | reservedField
  deriving DecidableEq, Repr

/-- OP = w[31:26] (R100). -/
def fieldOp (w : Word) : Nat := (w.extractLsb' 26 6).toNat

/-- c = zext_2(w[25:24]) (R102). -/
def fieldCtx (w : Word) : CtxId := ⟨(w.extractLsb' 24 2).toNat, (w.extractLsb' 24 2).isLt⟩

/-- a = zext_12(w[23:12]) (R102). -/
def fieldAddr (w : Word) : Nat := (w.extractLsb' 12 12).toNat

/-- l = zext_12(w[11:0]) (R102). -/
def fieldLen (w : Word) : Nat := (w.extractLsb' 0 12).toNat

/-- `i`, unless a field it does not use is not zero (R103, R106). -/
def ifReservedZero (zero : Bool) (i : Instr) : Except DecodeError Instr :=
  if zero then .ok i else .error .reservedField

/-- The case analysis of R108's decoding pseudocode, on the four fields. -/
def decodeFields (op : Nat) (c : CtxId) (a l : Nat) : Except DecodeError Instr :=
  match op with
  | 0x01 => ifReservedZero (a == 0 && l == 0) (.xofInit c)
  | 0x02 => .ok (.xofAbsorb c a l)
  | 0x03 => ifReservedZero (a == 0 && l == 0) (.xofFinal c)
  | 0x04 => .ok (.xofSqueeze c a l)
  | 0x05 => .ok (.xofSeed c a l)
  | 0x06 => ifReservedZero (a == 0 && l == 0) (.xofClear c)
  | 0x10 => ifReservedZero (c == 0) (.compDec a l)
  | 0x11 => ifReservedZero (c == 0) (.ctEnc a l)
  | 0x12 => ifReservedZero (c == 0) (.compEnc a l)
  | 0x13 => ifReservedZero (c == 0) (.ctDec a l)
  | 0x20 => ifReservedZero (c == 0) (.bufZero a l)
  | 0x21 => ifReservedZero (c == 0 && a == 0 && l == 0) .coefZero
  | _ => .error .unassignedOp

/-- The decoding pseudocode of R108: the same four fields of every word alike (R101). -/
def decode (w : Word) : Except DecodeError Instr := decodeFields (fieldOp w) (fieldCtx w) (fieldAddr w) (fieldLen w)

/-- w = OP * 2^26 + CTX * 2^24 + ADDR * 2^12 + LEN (R100). -/
def packCW (op : Nat) (c : CtxId) (a l : Nat) : Word :=
  BitVec.ofNat 32 (op * 2 ^ 26 + c.val * 2 ^ 24 + a * 2 ^ 12 + l)

/-- The OP number of a command (R104). -/
def Instr.opcode : Instr → Nat
  | .xofInit _ => 0x01
  | .xofAbsorb _ _ _ => 0x02
  | .xofFinal _ => 0x03
  | .xofSqueeze _ _ _ => 0x04
  | .xofSeed _ _ _ => 0x05
  | .xofClear _ => 0x06
  | .compDec _ _ => 0x10
  | .ctEnc _ _ => 0x11
  | .compEnc _ _ => 0x12
  | .ctDec _ _ => 0x13
  | .bufZero _ _ => 0x20
  | .coefZero => 0x21

/-- The command word of a well-formed command (R100, R104). -/
def encode : Instr → Word
  | .xofInit c => packCW 0x01 c 0 0
  | .xofAbsorb c a l => packCW 0x02 c a l
  | .xofFinal c => packCW 0x03 c 0 0
  | .xofSqueeze c a l => packCW 0x04 c a l
  | .xofSeed c a l => packCW 0x05 c a l
  | .xofClear c => packCW 0x06 c 0 0
  | .compDec a l => packCW 0x10 0 a l
  | .ctEnc a l => packCW 0x11 0 a l
  | .compEnc a l => packCW 0x12 0 a l
  | .ctDec a l => packCW 0x13 0 a l
  | .bufZero a l => packCW 0x20 0 a l
  | .coefZero => packCW 0x21 0 0 0

/-- One row of the match and mask table (R109). -/
structure OpcodeRow where
  mnemonic : String
  pattern : Word
  mask : Word
  deriving DecidableEq, Repr

/-- The match and mask table of R109. -/
def opcodeRows : List OpcodeRow :=
  [⟨"XOF.INIT", 0x04000000, 0xFCFFFFFF⟩,
   ⟨"XOF.ABSORB", 0x08000000, 0xFC000000⟩,
   ⟨"XOF.FINAL", 0x0C000000, 0xFCFFFFFF⟩,
   ⟨"XOF.SQUEEZE", 0x10000000, 0xFC000000⟩,
   ⟨"XOF.SEED", 0x14000000, 0xFC000000⟩,
   ⟨"XOF.CLEAR", 0x18000000, 0xFCFFFFFF⟩,
   ⟨"COMP.DEC", 0x40000000, 0xFF000000⟩,
   ⟨"CT.ENC", 0x44000000, 0xFF000000⟩,
   ⟨"COMP.ENC", 0x48000000, 0xFF000000⟩,
   ⟨"CT.DEC", 0x4C000000, 0xFF000000⟩,
   ⟨"BUF.ZERO", 0x80000000, 0xFF000000⟩,
   ⟨"COEF.ZERO", 0x84000000, 0xFFFFFFFF⟩]

/-- "a word w selects a row when (w AND mask) = match" (R109). -/
def OpcodeRow.selects (r : OpcodeRow) (w : Word) : Bool := w &&& r.mask == r.pattern

/-- The name of a command in the table (R104). -/
def Instr.mnemonic : Instr → String
  | .xofInit _ => "XOF.INIT"
  | .xofAbsorb _ _ _ => "XOF.ABSORB"
  | .xofFinal _ => "XOF.FINAL"
  | .xofSqueeze _ _ _ => "XOF.SQUEEZE"
  | .xofSeed _ _ _ => "XOF.SEED"
  | .xofClear _ => "XOF.CLEAR"
  | .compDec _ _ => "COMP.DEC"
  | .ctEnc _ _ => "CT.ENC"
  | .compEnc _ _ => "COMP.ENC"
  | .ctDec _ _ => "CT.DEC"
  | .bufZero _ _ => "BUF.ZERO"
  | .coefZero => "COEF.ZERO"

/-- The command word whose `nbits` low bits are those of `w` and whose other bits are zero. -/
def tableWord (nbits w : Nat) : Word := BitVec.ofNat 32 (w % 2 ^ nbits)

/-- What the decoder reads from the command word with the bits `w`. The block stores no command in memory (R89), so the
word is given to the decoder as it stands. -/
def decodeTableWord (nbits w : Nat) : Option Instr :=
  match decode (tableWord nbits w) with
  | .ok i => some i
  | .error _ => none

end Sys2Proof
end

