-- ==== Sys2Proof/Machine/State.lean ====
section
/-! DEFINITION. The state of the block as plain data (10_state.md R31), the host's turns, the reasons a step stops, and
the state after reset (R48). -/

namespace Sys2Proof.Machine

/-- The mode of an XOF context (R32). -/
inductive Mode where
  | idle
  | absorb
  | squeeze
  deriving DecidableEq, Repr

/-- An XOF context: the triple (mode, msg, out) of R32. The sponge behind it (R35) is the view `XofCtx.sponge` in
Machine/Sponge.lean. DEDUCED, log entry 5. -/
structure XofCtx where
  mode : Mode
  msg : List Byte
  out : Nat
  deriving DecidableEq, Repr

/-- The status codes of 60_exceptions.md R220. Codes 8 to 15 are never produced, so they have no constructor. -/
inductive StatusCode where
  | ok
  | illegal
  | range
  | arg
  | state
  | value
  | overflow
  | format
  deriving DecidableEq, Repr

/-- Bytes by address: addresses strictly rising (`Memory.wf`). An address that is not listed has no value, as R48 says of
storage nobody has written since reset; no entry says "no value", so equal memories are equal lists. Log entry 1. -/
abbrev Memory := List Host.Cell

/-- The width of a host access (20_memory.md R72, R77). `w64` stands for every access wider than 32 bits, which moves no
data anywhere in the window (R77, R45). DESIGN CHOICE, log entry 14. -/
inductive Width where
  | w8
  | w16
  | w32
  | w64
  deriving DecidableEq, Repr

/-- One host access to the window at an offset (R70). A write narrower than 32 bits writes the low bytes of `v`. -/
inductive Access where
  | read (w : Width) (o : Nat)
  | write (w : Width) (o : Nat) (v : Word)
  deriving DecidableEq, Repr

/-- Who takes the next step of the interleaving (20_memory.md R84): the HOST with one access, the ENGINE, or the platform's
reset (70_reset_and_hazards.md R260). DESIGN CHOICE, log entry 8. -/
inductive Turn where
  | host (a : Access)
  | engine
  | reset
  deriving DecidableEq, Repr

/-- The state of the block (R31), the program and its index (R39), and two fields of the model's own. XSTAT (R44) is a
view of `ctx` and PARAM (R43) a constant: `xstat` and `Config.paramWord`. -/
structure State where
  /-- CTX[0..3] (R32). -/
  ctx : Vector XofCtx 4
  /-- COEF[0..1023] as its bytes, COEF[i] at 2 i (low byte) and 2 i + 1 (R37, R73). Log entry 2. -/
  coef : Memory
  /-- BUF[0..4095] (R38). -/
  buf : Memory
  /-- STATUS (R41). -/
  status : Word
  /-- RESULT (R42). -/
  result : Word
  /-- PENDING: the latched command word, if any (R47). -/
  pending : Option Word
  /-- The command words the host has written to CMD and the block has accepted, in order (R39). Log entry 7. -/
  program : List Word
  /-- The index into `program` of the next command to complete (R39). -/
  pc : Nat
  /-- The model's own: the turns still to come, first one first (R84). Log entry 8. -/
  script : List Turn
  /-- The model's own: the data of the host's last read, if it has read. Log entry 10. -/
  busData : Option Word
  deriving DecidableEq, Repr

/-- Why the model stops with an error. -/
inductive Fault where
  /-- A command or a host read reads a BUF byte nothing has written since reset (R48, 93_implementation_defined.md I1).
  Raised by XOF.ABSORB, XOF.SEED, COMP.DEC, CT.DEC and host reads of BUF. Safe: no value is picked. -/
  | unwrittenBuf
  /-- A command or a host read reads a COEF byte nothing has written since reset (R48, R178, I1). Raised by CT.ENC,
  COMP.ENC and host reads of COEF. Safe. -/
  | unwrittenCoef
  /-- A host access of the wrong width or alignment is answered with a bus error (20_memory.md R77, I4). Raised by host
  accesses. Safe: nothing is claimed of what follows. -/
  | busError
  /-- A host access is not inside the window, so it is none of the block's (R70). Raised by host accesses. Safe. -/
  | outsideWindow
  deriving DecidableEq, Repr

/-- Why the model offers no step. -/
inductive Refusal where
  /-- An instruction without a meaning in `exec`. Raised by `exec` alone. Safe. -/
  | notModelled (mnemonic : String)
  /-- A host access to BUF or COEF while STATUS.BUSY = 1, to which a model gives no step (70_reset_and_hazards.md R271,
  I2). Raised by host accesses. Safe. -/
  | storageAccessWhileBusy
  deriving DecidableEq, Repr

/-- The outcome of a command, an access or a step. -/
abbrev Result := Host.Outcome State Fault Refusal

/-- A context after reset or XOF.CLEAR (R48, R146). -/
def XofCtx.cleared : XofCtx := { mode := .idle, msg := [], out := 0 }

/-- The state after reset (R48, 70_reset_and_hazards.md R260): every context (IDLE, empty, 0), STATUS and RESULT zero,
PENDING empty, BUF and COEF without a value, the program index 0 (R39). -/
def State.reset : State where
  ctx := Vector.replicate 4 XofCtx.cleared
  coef := []
  buf := []
  status := 0x00000000
  result := 0x00000000
  pending := none
  program := []
  pc := 0
  script := []
  busData := none

end Sys2Proof.Machine
end

