-- ==== Sys2Proof/Machine/Flags.lean ====
section
/-! DEFINITION. The fields of STATUS, RESULT and XSTAT and every way they change (10_state.md R41, R42, R44;
60_exceptions.md R220 to R222). -/

namespace Sys2Proof.Machine

/-- The number of a status code (R220). -/
def StatusCode.bits : StatusCode → BitVec 4
  | .ok => 0
  | .illegal => 1
  | .range => 2
  | .arg => 3
  | .state => 4
  | .value => 5
  | .overflow => 6
  | .format => 7

/-- STATUS.BUSY, bit 0 (R41). -/
def statusBusy (st : Word) : Bool := st.getLsbD 0

/-- STATUS.ERR, bits 7:4 (R41). -/
def statusErr (st : Word) : BitVec 4 := st.extractLsb' 4 4

/-- STATUS.ANYERR, bit 8 (R41). -/
def statusAnyErr (st : Word) : Bool := st.getLsbD 8

/-- STATUS.DROP, bit 9 (R41). -/
def statusDrop (st : Word) : Bool := st.getLsbD 9

/-- The bits of STATUS that are not reserved: 9:4 and 0 (R41). -/
def statusMask : Word := 0x000003F1

/-- What a host read of STATUS returns: reserved bits read as zero (R41). -/
def statusRead (st : Word) : Word := st &&& statusMask

/-- STATUS once a CMD write is accepted: BUSY := 1 (R40). -/
def statusAccept (st : Word) : Word := st ||| 0x00000001

/-- STATUS once a CMD write is dropped: DROP := 1 (R46). -/
def statusDropped (st : Word) : Word := st ||| 0x00000200

/-- STATUS once a command completes with `code`: ERR := code, BUSY := 0, and ANYERR := 1 if the code is not OK; every
other bit stays (R221, R222). -/
def statusComplete (code : StatusCode) (st : Word) : Word :=
  (st &&& ~~~0x000000F1#32) ||| (code.bits.setWidth 32 <<< 4) ||| (if code = .ok then 0x00000000#32 else 0x00000100#32)

/-- STATUS once the host writes `v` to it: ANYERR and DROP are cleared by ones, everything else stays (R41). -/
def statusWrite (v st : Word) : Word := st &&& ~~~(v &&& 0x00000300)

/-- RESULT for the count `r`: bits 11:0 hold it and bits 31:12 are zero (R42). -/
def resultWord (r : Nat) : Word := (BitVec.ofNat 12 r).setWidth 32

/-- What a host read of RESULT returns: bits 31:12 read 0 (R42). -/
def resultRead (w : Word) : Word := w &&& 0x00000FFF

/-- The two bits of XSTAT that show a mode; 0b11 is never read (R44). -/
def Mode.bits : Mode → BitVec 2
  | .idle => 0b00
  | .absorb => 0b01
  | .squeeze => 0b10

/-- XSTAT: bits 2c+1:2c hold the mode of CTX[c], bits 31:8 are zero (R44). -/
def xstat (s : State) : Word :=
  0#24 ++ s.ctx[3].mode.bits ++ s.ctx[2].mode.bits ++ s.ctx[1].mode.bits ++ s.ctx[0].mode.bits

end Sys2Proof.Machine
end

