-- ==== Sys2Proof/Machine/Ops.lean ====
section
/-! DEFINITION. The shared operations: memory, contexts, and the two ways a command ends, `done` and `raiseErr`
(00_scope.md R13, 60_exceptions.md R221, R222). -/

namespace Sys2Proof.Machine

/-- The canonical form of a memory: addresses strictly rising. -/
def Memory.wf : Memory → Bool
  | [] => true
  | [_] => true
  | x :: y :: m => decide (x.1 < y.1) && Memory.wf (y :: m)

/-- Every listed address is below `size`. -/
def Memory.within (size : Nat) (m : Memory) : Bool := m.all fun x => decide (x.1 < size)

/-- The byte at address `a`, if anything has written it (R48). -/
def Memory.read? : Memory → Nat → Option Byte
  | [], _ => none
  | (k, b) :: m, a => if k < a then Memory.read? m a else if k = a then some b else none

/-- `MemRead(a, n)`: the bytes at `a` to `a + n - 1` in address order (R13, R75), if every one of them has been written
(R48). -/
def Memory.readBytes : Memory → Nat → Nat → Option (List Byte)
  | _, _, 0 => some []
  | [], _, _ + 1 => none
  | (k, b) :: m, a, n + 1 =>
    if k < a then Memory.readBytes m a (n + 1)
    else if k = a then (Memory.readBytes m (a + 1) n).map (b :: ·)
    else none

/-- The cells that hold the bytes `bs` from address `a` on. -/
def cellsFrom (a : Nat) : List Byte → Memory
  | [] => []
  | b :: bs => (a, b) :: cellsFrom (a + 1) bs

/-- `MemWrite(a, n, bs)` with n = |bs|: the bytes at `a` to `a + n - 1` become `bs`, every other byte stays (R13, R75). -/
def Memory.writeBytes (m : Memory) (a : Nat) (bs : List Byte) : Memory :=
  m.filter (fun x => decide (x.1 < a)) ++ cellsFrom a bs ++ m.filter (fun x => decide (a + bs.length ≤ x.1))

/-- The state with context `c` replaced (R32). -/
def State.setCtx (s : State) (c : CtxId) (x : XofCtx) : State := { s with ctx := s.ctx.set c x }

/-- What completing a command does whatever its outcome: STATUS takes the code, PENDING is emptied (R221, R222) and the
program index moves on by one (R39). -/
def State.complete (s : State) (code : StatusCode) : State :=
  { s with status := statusComplete code s.status, pending := none, pc := s.pc + 1 }

/-- `done(r)`: success with the count `r`, given the state with the command's writes made (R221). -/
def done (r : Nat) (s : State) : Result := .next { s.complete .ok with result := resultWord r }

/-- `raise Err(code)`: failure, given the state as it was before the command; nothing but STATUS, PENDING and the program
index changes (R222). -/
def raiseErr (code : StatusCode) (s : State) : Result := .next (s.complete code)

end Sys2Proof.Machine
end

