-- ==== Sys2Proof/Machine/Operands.lean ====
section
/-! DEFINITION. The forms of a command's operands: the region [ADDR, ADDR + LEN) of BUF (20_memory.md R79), the coefficient
file as a vector of int16 (10_state.md R37), and the byte order of both (20_memory.md R73, R74). -/

namespace Sys2Proof.Machine

/-- The range check of a region, with no wrap-around (R79): ADDR + LEN ≤ BUF_BYTES. -/
def inBuf (a l : Nat) : Bool := decide (a + l ≤ Config.bufBytes)

/-- COEF[i]'s byte address: its low byte is there, its high byte at the next address (R73). -/
def coefAddr (i : Nat) : Nat := 2 * i

/-- The bytes of an entry of COEF, bits 7:0 first (R73). -/
def coefToBytes (x : Coef) : List Byte := [x.extractLsb' 0 8, x.extractLsb' 8 8]

/-- The bytes of a vector of coefficients, entry 0 first (R73). -/
def coefsToBytes (v : List Coef) : List Byte := v.flatMap coefToBytes

/-- The vector of coefficients that a byte string holds (R73). -/
def bytesToCoefs : List Byte → List Coef
  | lo :: hi :: bs => (hi ++ lo) :: bytesToCoefs bs
  | _ => []

/-- COEF[i], if both of its bytes have been written (R37, R48; log entry 2). -/
def Memory.readCoef? (m : Memory) (i : Nat) : Option Coef :=
  match m.readBytes (coefAddr i) 2 with
  | some [lo, hi] => some (hi ++ lo)
  | _ => none

/-- COEF[0..N), if every entry has been written (R170, R178). -/
def Memory.readCoefs (m : Memory) : Option (List Coef) := (m.readBytes 0 Config.coefBytes).map bytesToCoefs

/-- COEF[0..N) becomes `v` (R170). -/
def Memory.writeCoefs (m : Memory) (v : List Coef) : Memory := m.writeBytes 0 (coefsToBytes v)

/-- The word whose bytes are `bs`, lowest address in the lowest bits (R74). -/
def leWord : List Byte → Word
  | [] => 0
  | b :: bs => (leWord bs <<< 8) ||| b.setWidth 32

/-- The low `n` bytes of a word, bits 7:0 first (R74). -/
def leBytes (n : Nat) (v : Word) : List Byte := (List.range n).map fun k => v.extractLsb' (8 * k) 8

end Sys2Proof.Machine
end

