-- ==== Sys2Proof/Machine/Buffer.lean ====
section
/-! DEFINITION. The buffer commands (42_buffer.md R210 to R212). -/

namespace Sys2Proof.Machine

/-- BUF.ZERO (R210): RANGE, then the region's bytes become zero. -/
def execBufZero (a l : Nat) (s : State) : Result :=
  if !inBuf a l then raiseErr .range s
  else done l { s with buf := s.buf.writeBytes a (List.replicate l 0) }

/-- COEF.ZERO (R211): every coefficient becomes zero. -/
def execCoefZero (s : State) : Result :=
  done 0 { s with coef := s.coef.writeCoefs (List.replicate Config.n 0) }

end Sys2Proof.Machine
end

