-- ==== Sys2Proof/Machine/Formats.lean ====
section
/-! DEFINITION. The two coefficient formats of 41_codec.md: compressed (R171, R174, R175) and constant-time (R172, R181).
Bit strings are most significant bit first (00_scope.md R15). -/

namespace Sys2Proof.Machine

/-- The `w` bits of a `w`-bit value, most significant first (R15). -/
def bitsOf {w : Nat} (x : BitVec w) : Bits := (List.range w).map fun i => x.getLsbD (w - 1 - i)

/-- The number whose bits these are, most significant first: m := 2 m + bit (R175). -/
def natOfBits (bs : Bits) : Nat := bs.foldl (fun m b => 2 * m + b.toNat) 0

/-- The bits of a byte string (R15). -/
def bitsOfBytes (s : List Byte) : Bits := s.flatMap bitsOf

/-- The bytes of a bit string whose length is a multiple of 8 (R15, R171). -/
def bytesOfBits : Bits → List Byte
  | b7 :: b6 :: b5 :: b4 :: b3 :: b2 :: b1 :: b0 :: bs =>
    BitVec.ofNat 8 (natOfBits [b7, b6, b5, b4, b3, b2, b1, b0]) :: bytesOfBits bs
  | _ => []

/-- `bs` followed by the least number of zero bits that makes its length a multiple of 8 (R171). -/
def padToByte (bs : Bits) : Bits := bs ++ List.replicate ((8 - bs.length % 8) % 8) false

/-- A coefficient either format can hold: in [-2047, 2047] (R173, R176, R180). -/
def coefInRange (x : Coef) : Bool := decide (x.toInt.natAbs ≤ Config.coefMax)

/-- e(x): sign, low 7 bits of the magnitude, m >> 7 zero bits, a one bit (R171). -/
def compEncodeCoef (x : Coef) : Bits :=
  let m := x.toInt.natAbs
  decide (x.toInt < 0) :: bitsOf (BitVec.ofNat 7 m) ++ List.replicate (m >>> 7) false ++ [true]

/-- The compressed stream of a vector: E cut into bytes (R171). -/
def compEncode (v : List Coef) : List Byte := bytesOfBits (padToByte (v.flatMap compEncodeCoef))

/-- The loop of R175 that reads the unary part: `m` grows by 128 for each zero bit up to a one bit. `none` is FORMAT: the
stream ends, or the magnitude passes 2047. The answer is the magnitude and the bits not yet read. -/
def compDecodeUnary : Nat → Bits → Option (Nat × Bits)
  | _, [] => none
  | m, true :: bs => some (m, bs)
  | m, false :: bs => if m + 128 > Config.coefMax then none else compDecodeUnary (m + 128) bs

/-- One coefficient of R175: sign, low 7 bits, unary part; "-0" is refused. `none` is FORMAT. -/
def compDecodeCoef : Bits → Option (Coef × Bits)
  | sgn :: b6 :: b5 :: b4 :: b3 :: b2 :: b1 :: b0 :: bs =>
    match compDecodeUnary (natOfBits [b6, b5, b4, b3, b2, b1, b0]) bs with
    | none => none
    | some (m, rest) =>
      if sgn && m == 0 then none
      else some (if sgn then BitVec.ofInt 16 (-(m : Int)) else BitVec.ofNat 16 m, rest)
  | _ => none

/-- `k` coefficients in a row and the bits not yet read (R175). -/
def compDecodeCoefs : Nat → Bits → Option (List Coef × Bits)
  | 0, bs => some ([], bs)
  | k + 1, bs =>
    match compDecodeCoef bs with
    | none => none
    | some (x, rest) =>
      match compDecodeCoefs k rest with
      | none => none
      | some (v, rest') => some (x :: v, rest')

/-- COMP.DEC's decoder for `k` coefficients (R175): p bits are read, used = ceil(p / 8), the bits from p to 8 used must be
zero and used must be the stream's length. `none` is FORMAT. -/
def compDecode (k : Nat) (s : List Byte) : Option (List Coef) :=
  match compDecodeCoefs k (bitsOfBytes s) with
  | none => none
  | some (v, rest) =>
    let p := 8 * s.length - rest.length
    let used := (p + 7) / 8
    if (rest.take (8 * used - p)).any id then none
    else if used ≠ s.length then none
    else some v

/-- t(x): the 12 bits of x mod 4096 (R172). -/
def ctEncodeCoef (x : Coef) : Bits := bitsOf (x.setWidth 12)

/-- The constant-time stream of a vector (R172). -/
def ctEncode (v : List Coef) : List Byte := bytesOfBits (v.flatMap ctEncodeCoef)

/-- CT.DEC's loop over the 12-bit slots (R181): the pattern 0x800 is refused, every other one is sign-extended. -/
def ctDecodeBits : Bits → Option (List Coef)
  | b11 :: b10 :: b9 :: b8 :: b7 :: b6 :: b5 :: b4 :: b3 :: b2 :: b1 :: b0 :: bs =>
    let w := BitVec.ofNat 12 (natOfBits [b11, b10, b9, b8, b7, b6, b5, b4, b3, b2, b1, b0])
    if w = 0x800#12 then none else (ctDecodeBits bs).map (w.signExtend 16 :: ·)
  | _ => some []

/-- CT.DEC's decoder (R181). `none` is FORMAT. -/
def ctDecode (s : List Byte) : Option (List Coef) := ctDecodeBits (bitsOfBytes s)

end Sys2Proof.Machine
end

