-- ==== Sys2Proof/Machine/Codec.lean ====
section
/-! DEFINITION. The codec commands (41_codec.md R175, R176, R180, R181), each in the check order of 60_exceptions.md R224.
A command that reads storage faults on storage nobody has written (R48, R178) at the point where its pseudocode reads it
(log entry 3). -/

namespace Sys2Proof.Machine

/-- COMP.DEC (R175): RANGE, then the region is read and decoded; FORMAT leaves COEF as it was. -/
def execCompDec (a l : Nat) (s : State) : Result :=
  if !inBuf a l then raiseErr .range s
  else
    match s.buf.readBytes a l with
    | none => .fault .unwrittenBuf
    | some bs =>
      match compDecode Config.n bs with
      | none => raiseErr .format s
      | some v => done l { s with coef := s.coef.writeCoefs v }

/-- CT.ENC (R176): RANGE, VALUE, OVERFLOW, then 1536 bytes are written. -/
def execCtEnc (a l : Nat) (s : State) : Result :=
  if !inBuf a l then raiseErr .range s
  else
    match s.coef.readCoefs with
    | none => .fault .unwrittenCoef
    | some v =>
      if !v.all coefInRange then raiseErr .value s
      else if l < Config.ctLen then raiseErr .overflow s
      else done Config.ctLen { s with buf := s.buf.writeBytes a (ctEncode v) }

/-- COMP.ENC (R180): RANGE, VALUE, OVERFLOW, then the stream's r bytes are written. -/
def execCompEnc (a l : Nat) (s : State) : Result :=
  if !inBuf a l then raiseErr .range s
  else
    match s.coef.readCoefs with
    | none => .fault .unwrittenCoef
    | some v =>
      if !v.all coefInRange then raiseErr .value s
      else if l < (compEncode v).length then raiseErr .overflow s
      else done (compEncode v).length { s with buf := s.buf.writeBytes a (compEncode v) }

/-- CT.DEC (R181): RANGE, FORMAT (length), then the region is read and decoded; FORMAT leaves COEF as it was. -/
def execCtDec (a l : Nat) (s : State) : Result :=
  if !inBuf a l then raiseErr .range s
  else if l ≠ Config.ctLen then raiseErr .format s
  else
    match s.buf.readBytes a Config.ctLen with
    | none => .fault .unwrittenBuf
    | some bs =>
      match ctDecode bs with
      | none => raiseErr .format s
      | some v => done Config.ctLen { s with coef := s.coef.writeCoefs v }

end Sys2Proof.Machine
end

