-- ==== Sys2Proof/Machine/Sponge.lean ====
section
/-! DEFINITION. SHAKE256 by the reference realization of 40_xof.md R150 to R159, and the concrete sponge behind a context
as a view of its abstract state. DESIGN CHOICE, log entry 4 (the parameter SHAKE256 of 00_scope.md R14 is this function). -/

namespace Sys2Proof.Machine

/-- The 25 lanes of the Keccak state, lane (x, y) at index x + 5 y (R150). -/
abbrev Lanes := List Lane

/-- Lane (x, y), indices mod 5 (R155). -/
def laneAt (A : Lanes) (x y : Nat) : Lane := A.getD (x % 5 + 5 * (y % 5)) 0

/-- The lanes whose lane (x, y) is `f x y`. -/
def lanesOf (f : Nat → Nat → Lane) : Lanes := (List.range 25).map fun k => f (k % 5) (k / 5)

/-- The table of R156: one list for each row y, column x in it. -/
def rotationRows : List (List Nat) :=
  [[0, 1, 62, 28, 27],
   [36, 44, 6, 55, 20],
   [3, 10, 43, 25, 39],
   [41, 45, 15, 21, 8],
   [18, 2, 61, 56, 14]]

/-- r[x, y] (R156). -/
def rotationOffset (x y : Nat) : Nat := (rotationRows.getD y []).getD x 0

/-- The table of R157: row i holds RC[i] and RC[i + 12]. -/
def roundConstantRows : List (Lane × Lane) :=
  [(0x0000000000000001, 0x000000008000808B),
   (0x0000000000008082, 0x800000000000008B),
   (0x800000000000808A, 0x8000000000008089),
   (0x8000000080008000, 0x8000000000008003),
   (0x000000000000808B, 0x8000000000008002),
   (0x0000000080000001, 0x8000000000000080),
   (0x8000000080008081, 0x000000000000800A),
   (0x8000000000008009, 0x800000008000000A),
   (0x000000000000008A, 0x8000000080008081),
   (0x0000000000000088, 0x8000000000008080),
   (0x0000000080008009, 0x0000000080000001),
   (0x000000008000000A, 0x8000000080008008)]

/-- RC[0] to RC[23], in the order of the rounds: the table's left column, then its right one (R157). -/
def roundConstants : List Lane := roundConstantRows.map Prod.fst ++ roundConstantRows.map Prod.snd

/-- C[x] of theta (R155). -/
def thetaC (A : Lanes) : Lanes :=
  (List.range 5).map fun x => laneAt A x 0 ^^^ laneAt A x 1 ^^^ laneAt A x 2 ^^^ laneAt A x 3 ^^^ laneAt A x 4

/-- D[x] of theta, from C; index x - 1 is x + 4 mod 5 (R155). -/
def thetaD (C : Lanes) : Lanes :=
  (List.range 5).map fun x => C.getD ((x + 4) % 5) 0 ^^^ (C.getD ((x + 1) % 5) 0).rotateLeft 1

/-- theta (R155). -/
def theta (A : Lanes) : Lanes :=
  let D := thetaD (thetaC A)
  lanesOf fun x y => laneAt A x y ^^^ D.getD x 0

/-- rho and pi: B[y, 2x + 3y] := rot(A[x, y], r[x, y]) (R155). Lane (X, Y) of B comes from y = X and x = X + 3 Y mod 5,
since 2 (X + 3 Y) + 3 X = Y mod 5. -/
def rhoPi (A : Lanes) : Lanes :=
  lanesOf fun X Y =>
    let x := (X + 3 * Y) % 5
    (laneAt A x X).rotateLeft (rotationOffset x X)

/-- chi (R155). -/
def chi (B : Lanes) : Lanes := lanesOf fun x y => laneAt B x y ^^^ (~~~laneAt B (x + 1) y &&& laneAt B (x + 2) y)

/-- iota: A[0, 0] := A[0, 0] xor RC (R155). -/
def iota (rc : Lane) : Lanes → Lanes
  | [] => []
  | x :: A => (x ^^^ rc) :: A

/-- One round (R155). -/
def keccakRound (A : Lanes) (rc : Lane) : Lanes := iota rc (chi (rhoPi (theta A)))

/-- Keccak-f[1600] on lanes: 24 rounds (R155). -/
def keccakLanes (A : Lanes) : Lanes := roundConstants.foldl keccakRound A

/-- The little-endian 64-bit values of a byte string (R150). -/
def bytesToLanes : List Byte → Lanes
  | b0 :: b1 :: b2 :: b3 :: b4 :: b5 :: b6 :: b7 :: bs => (b7 ++ b6 ++ b5 ++ b4 ++ b3 ++ b2 ++ b1 ++ b0) :: bytesToLanes bs
  | _ => []

/-- The bytes of lanes, each little-endian (R150). -/
def lanesToBytes (A : Lanes) : List Byte := A.flatMap fun x => (List.range 8).map fun k => x.extractLsb' (8 * k) 8

/-- Keccak-f[1600] on the 200 bytes S (R150, R155). -/
def keccakF (S : List Byte) : List Byte := lanesToBytes (keccakLanes (bytesToLanes S))

/-- The concrete sponge state: S, 200 bytes, and pos, 0 to 136 (R150). -/
structure Sponge where
  bytes : List Byte
  pos : Nat
  deriving DecidableEq, Repr

/-- Concrete INIT, CLEAR and reset: S zero, pos 0 (R151, R159). -/
def Sponge.zero : Sponge := { bytes := List.replicate 200 0, pos := 0 }

/-- S with byte `i` xored with `b`. -/
def xorByte (S : List Byte) (i : Nat) (b : Byte) : List Byte := S.modify i (· ^^^ b)

/-- Concrete absorb of one byte (R152). -/
def Sponge.absorbByte (p : Sponge) (b : Byte) : Sponge :=
  let S := xorByte p.bytes p.pos b
  if p.pos + 1 = Config.rate then { bytes := keccakF S, pos := 0 } else { bytes := S, pos := p.pos + 1 }

/-- Concrete ABSORB: each byte in order (R152). -/
def Sponge.absorb (p : Sponge) (bs : List Byte) : Sponge := bs.foldl Sponge.absorbByte p

/-- Concrete finalize (R153). -/
def Sponge.finalize (p : Sponge) : Sponge :=
  { bytes := keccakF (xorByte (xorByte p.bytes p.pos 0x1F) 135 0x80), pos := 0 }

/-- Concrete squeeze of one byte (R154). -/
def Sponge.squeezeByte (p : Sponge) : Byte × Sponge :=
  let q : Sponge := if p.pos = Config.rate then { bytes := keccakF p.bytes, pos := 0 } else p
  (q.bytes.getD q.pos 0, { q with pos := q.pos + 1 })

/-- Concrete SQUEEZE: `n` bytes, one after another (R154). -/
def Sponge.squeeze : Nat → Sponge → List Byte × Sponge
  | 0, p => ([], p)
  | n + 1, p =>
    let (b, q) := p.squeezeByte
    let (bs, r) := Sponge.squeeze n q
    (b :: bs, r)

/-- `SHAKE256(M, L)`: the first L bytes of the output for the message M (00_scope.md R14). -/
def shake256 (M : List Byte) (L : Nat) : List Byte := (Sponge.squeeze L (Sponge.zero.absorb M).finalize).1

/-- The next `l` bytes a context in SQUEEZE puts out: `SHAKE256(msg, out + l)[out .. out + l)` (R140). -/
def XofCtx.nextBytes (x : XofCtx) (l : Nat) : List Byte := (shake256 x.msg (x.out + l)).drop x.out

/-- The concrete sponge state behind a context, which nothing reads directly (R35). DEDUCED, log entry 5. -/
def XofCtx.sponge (x : XofCtx) : Sponge :=
  match x.mode with
  | .idle => Sponge.zero
  | .absorb => Sponge.zero.absorb x.msg
  | .squeeze => (Sponge.squeeze x.out (Sponge.zero.absorb x.msg).finalize).2

end Sys2Proof.Machine
end

