-- ==== Sys2Proof/Machine/Xof.lean ====
section
/-! DEFINITION. The XOF commands (40_xof.md R141 to R148), each in the check order of 60_exceptions.md R224. -/

namespace Sys2Proof.Machine

/-- XOF.INIT (R141): the context becomes (ABSORB, empty, 0) from any mode. -/
def execXofInit (c : CtxId) (s : State) : Result :=
  done 0 (s.setCtx c { mode := .absorb, msg := [], out := 0 })

/-- XOF.ABSORB (R142): RANGE, STATE, then the region's bytes join the message. -/
def execXofAbsorb (c : CtxId) (a l : Nat) (s : State) : Result :=
  if !inBuf a l then raiseErr .range s
  else if s.ctx[c].mode ≠ .absorb then raiseErr .state s
  else
    match s.buf.readBytes a l with
    | none => .fault .unwrittenBuf
    | some bs => done l (s.setCtx c { s.ctx[c] with msg := s.ctx[c].msg ++ bs })

/-- XOF.FINAL (R143): STATE, then the context goes to output mode with its message kept. -/
def execXofFinal (c : CtxId) (s : State) : Result :=
  if s.ctx[c].mode ≠ .absorb then raiseErr .state s
  else done 0 (s.setCtx c { s.ctx[c] with mode := .squeeze, out := 0 })

/-- XOF.SQUEEZE (R144): RANGE, STATE, then the next output bytes go to the region. -/
def execXofSqueeze (c : CtxId) (a l : Nat) (s : State) : Result :=
  if !inBuf a l then raiseErr .range s
  else if s.ctx[c].mode ≠ .squeeze then raiseErr .state s
  else
    done l { s.setCtx c { s.ctx[c] with out := s.ctx[c].out + l } with
      buf := s.buf.writeBytes a (s.ctx[c].nextBytes l) }

/-- XOF.SEED (R145): ARG, RANGE, then the context is in output mode with the 48 bytes as its message. -/
def execXofSeed (c : CtxId) (a l : Nat) (s : State) : Result :=
  if l ≠ Config.seedLen then raiseErr .arg s
  else if !inBuf a Config.seedLen then raiseErr .range s
  else
    match s.buf.readBytes a Config.seedLen with
    | none => .fault .unwrittenBuf
    | some bs => done Config.seedLen (s.setCtx c { mode := .squeeze, msg := bs, out := 0 })

/-- XOF.CLEAR (R146): the context becomes (IDLE, empty, 0) from any mode. -/
def execXofClear (c : CtxId) (s : State) : Result := done 0 (s.setCtx c XofCtx.cleared)

end Sys2Proof.Machine
end

