-- ==== Sys2Proof/Machine/Dispatch.lean ====
section
/-! DEFINITION. One arm per command: what ENGINE does with it, in one atomic step (10_state.md R47). -/

namespace Sys2Proof.Machine

def exec (i : Instr) (s : State) : Host.Outcome State Fault Refusal :=
  match i with
  | .xofInit c => Sys2Proof.Machine.execXofInit c s
  | .xofAbsorb c a l => Sys2Proof.Machine.execXofAbsorb c a l s
  | .xofFinal c => Sys2Proof.Machine.execXofFinal c s
  | .xofSqueeze c a l => Sys2Proof.Machine.execXofSqueeze c a l s
  | .xofSeed c a l => Sys2Proof.Machine.execXofSeed c a l s
  | .xofClear c => Sys2Proof.Machine.execXofClear c s
  | .compDec a l => Sys2Proof.Machine.execCompDec a l s
  | .ctEnc a l => Sys2Proof.Machine.execCtEnc a l s
  | .compEnc a l => Sys2Proof.Machine.execCompEnc a l s
  | .ctDec a l => Sys2Proof.Machine.execCtDec a l s
  | .bufZero a l => Sys2Proof.Machine.execBufZero a l s
  | .coefZero => Sys2Proof.Machine.execCoefZero s

end Sys2Proof.Machine
end

