-- ==== Sys2Proof/Machine/Window.lean ====
section
/-! DEFINITION. The host window (20_memory.md R70 to R81; 10_state.md R40 to R46): what one host read or write does. -/

namespace Sys2Proof.Machine

/-- The registers of the window, in the order of their offsets 0x0, 0x4, 0x8, 0xC, 0x10 (R72). -/
inductive Reg where
  | cmd
  | status
  | result
  | param
  | xstat
  deriving DecidableEq, Repr

/-- What a host access reaches (R72): a register, bytes of BUF or COEF from an address on, or reserved offsets. -/
inductive Place where
  | reg (r : Reg)
  | buf (a : Nat)
  | coef (a : Nat)
  | reserved
  deriving DecidableEq, Repr

/-- The bytes an access of this width moves; `w64` stands for every wider one (log entry 14). -/
def Width.bytes : Width → Nat
  | .w8 => 1
  | .w16 => 2
  | .w32 => 4
  | .w64 => 8

/-- The access of `n` bytes at offset `o` reaches an offset in [lo, hi). -/
def reaches (o n lo hi : Nat) : Bool := decide (o < hi) && decide (lo < o + n)

/-- The register at an aligned offset below 0x14 (R72). -/
def regAt (o : Nat) : Reg :=
  if o = 0x000 then .cmd
  else if o = 0x004 then .status
  else if o = 0x008 then .result
  else if o = 0x00C then .param
  else .xstat

/-- Where an access goes (R72). It is judged by R77 as soon as it reaches one offset of a register, of BUF or of COEF, and
is a bus error if its width or alignment is not one R77 allows there (log entry 12). -/
def place (w : Width) (o : Nat) : Except Fault Place :=
  if Config.windowBytes < o + w.bytes then .error .outsideWindow
  else if reaches o w.bytes 0x0000 0x0014 then
    if w = .w32 ∧ o % 4 = 0 then .ok (.reg (regAt o)) else .error .busError
  else if reaches o w.bytes 0x1000 0x2000 then
    if w ≠ .w64 ∧ o % w.bytes = 0 then .ok (.buf (o - 0x1000)) else .error .busError
  else if reaches o w.bytes 0x2000 0x2800 then
    if w ≠ .w64 ∧ o % w.bytes = 0 then .ok (.coef (o - 0x2000)) else .error .busError
  else .ok .reserved

/-- What a host read of a register returns (R40 to R44). -/
def readReg (r : Reg) (s : State) : Word :=
  match r with
  | .cmd => 0x00000000
  | .status => statusRead s.status
  | .result => resultRead s.result
  | .param => Config.paramWord
  | .xstat => xstat s

/-- The block accepts `w` (R40, R47): PENDING := w, BUSY := 1, and `w` is the program's next word (R39). -/
def acceptCmd (w : Word) (s : State) : State :=
  { s with pending := some w, status := statusAccept s.status, program := s.program ++ [w] }

/-- A host write to CMD: accepted when BUSY = 0, else dropped with DROP := 1 (R40, R46). -/
def writeCmd (w : Word) (s : State) : State :=
  if statusBusy s.status then { s with status := statusDropped s.status } else acceptCmd w s

/-- A host write to a register; all but CMD and STATUS ignore it (R40 to R44). -/
def writeReg (r : Reg) (v : Word) (s : State) : State :=
  match r with
  | .cmd => writeCmd v s
  | .status => { s with status := statusWrite v s.status }
  | .result => s
  | .param => s
  | .xstat => s

/-- The host's read ends with the data `v` (log entry 10). Reads have no side effects on the block (R81). -/
def answerRead (v : Word) (s : State) : Result := .next { s with busData := some v }

/-- A read of bytes of BUF or COEF (R73, R74), refused while BUSY (R271). -/
def readStorage (m : Memory) (unwritten : Fault) (w : Width) (a : Nat) (s : State) : Result :=
  if statusBusy s.status then .refused .storageAccessWhileBusy
  else
    match m.readBytes a w.bytes with
    | none => .fault unwritten
    | some bs => answerRead (leWord bs) s

/-- One host read. -/
def hostRead (w : Width) (o : Nat) (s : State) : Result :=
  match place w o with
  | .error f => .fault f
  | .ok (.reg r) => answerRead (readReg r s) s
  | .ok (.buf a) => readStorage s.buf .unwrittenBuf w a s
  | .ok (.coef a) => readStorage s.coef .unwrittenCoef w a s
  | .ok .reserved => answerRead 0x00000000 s

/-- One host write (R73, R74); a write to BUF or COEF is refused while BUSY (R271). -/
def hostWrite (w : Width) (o : Nat) (v : Word) (s : State) : Result :=
  match place w o with
  | .error f => .fault f
  | .ok (.reg r) => .next (writeReg r v s)
  | .ok (.buf a) =>
    if statusBusy s.status then .refused .storageAccessWhileBusy
    else .next { s with buf := s.buf.writeBytes a (leBytes w.bytes v) }
  | .ok (.coef a) =>
    if statusBusy s.status then .refused .storageAccessWhileBusy
    else .next { s with coef := s.coef.writeBytes a (leBytes w.bytes v) }
  | .ok .reserved => .next s

/-- One host access (R80). -/
def hostAccess (x : Access) (s : State) : Result :=
  match x with
  | .read w o => hostRead w o s
  | .write w o v => hostWrite w o v s

end Sys2Proof.Machine
end

