-- ==== Sys2Proof/Machine/Engine.lean ====
section
/-! DEFINITION. The turns of the interleaving (20_memory.md R84): ENGINE's step (10_state.md R47), a host access, reset
(70_reset_and_hazards.md R260), and which comes next. -/

namespace Sys2Proof.Machine

/-- ENGINE executes a command word: an illegal one as `raise Err(ILLEGAL)`, before every other check (30_encoding.md R106). -/
def execWord (w : Word) (s : State) : Result :=
  match decode w with
  | .error _ => raiseErr .illegal s
  | .ok i => exec i s

/-- ENGINE's step, enabled exactly when PENDING is non-empty (R47). Where it is not enabled its turn passes: the block is
idle and keeps all state (60_exceptions.md R237). -/
def engineStep (s : State) : Result :=
  match s.pending with
  | none => .next s
  | some w => execWord w s

/-- Reset (R260): every piece of the block's state takes its reset value; the host's own turns stay to come (log entry 8). -/
def resetStep (s : State) : State := { State.reset with script := s.script }

/-- One turn. -/
def takeTurn (t : Turn) (s : State) : Result :=
  match t with
  | .host x => hostAccess x s
  | .engine => engineStep s
  | .reset => .next (resetStep s)

/-- The next turn: the script's first, and ENGINE's once the script is empty, so that a latched command completes
(70_reset_and_hazards.md R280; log entry 8). -/
def nextTurn (s : State) : Result :=
  match s.script with
  | [] => takeTurn .engine s
  | t :: ts => takeTurn t { s with script := ts }

/-- PENDING := w as an accepted CMD write leaves it, `w` being the program's word at the index, and ENGINE's turn next
(log entry 9). -/
def latchNext (w : Word) (s : State) : State :=
  { s with
    pending := some w
    status := statusAccept s.status
    program := s.program.take s.pc ++ [w]
    script := .engine :: s.script }

end Sys2Proof.Machine
end

