-- ==== Sys2Proof/Machine/Step.lean ====
section
/-! DEFINITION. One step of the block and its host (20_memory.md R84), and how a command word is placed for the next one. -/

namespace Sys2Proof.Machine

/-- One step: `nextTurn`. -/
def step : State → Host.Outcome State Fault Refusal := nextTurn

/-- `s` with the command word of `nbits` bits `w` latched in PENDING and ENGINE's turn next, as the host's write to CMD
leaves the block (10_state.md R40, R47). Nothing is fetched (20_memory.md R89). Log entry 9. -/
def State.withFetchWord (s : State) (nbits w : Nat) : State := latchNext (tableWord nbits w) s

end Sys2Proof.Machine
end

