-- ==== Sys2Proof/Machine/Programs.lean ====
section
/-! DEFINITION. Pseudo-instructions (30_encoding.md R112), host directives (R111), and a program's commands run one after
another. -/

namespace Sys2Proof.Machine

/-- `XOF.HASH cN, addr, len` (R112). -/
def pseudoXofHash (c : CtxId) (a l : Nat) : List Instr := [.xofInit c, .xofAbsorb c a l, .xofFinal c]

/-- `XOF.WIPE cN`, an alias of XOF.CLEAR (R112). -/
def pseudoXofWipe (c : CtxId) : List Instr := [.xofClear c]

/-- `CONVERT src, len, dst` (R112, R113). -/
def pseudoConvert (src len dst : Nat) : List Instr := [.compDec src len, .ctEnc dst Config.ctLen]

/-- `COMP.ENC.SIG addr` (R112), with the capacity COMP_STREAM_MAX of 00_scope.md R22. -/
def pseudoCompEncSig (a : Nat) : List Instr := [.compEnc a Config.compStreamMax]

/-- `WIPE.ALL` (R112). -/
def pseudoWipeAll : List Instr :=
  [.xofClear 0, .xofClear 1, .xofClear 2, .xofClear 3, .bufZero 0 4095, .bufZero 4095 1, .coefZero]

/-- The commands of a list in order, each after the one before it has completed; a later one runs even when an earlier
one failed (R112). A fault or a refusal stops the model. -/
def runCommands : List Instr → State → Result
  | [], s => .next s
  | i :: is, s =>
    match exec i s with
    | .next t => runCommands is t
    | .fault f => .fault f
    | .refused r => .refused r

/-- `HOST.WRITE addr, bytes…`: the host stores bytes into BUF (R111), here a byte at a time. Bytes past BUF[4095] go on at
the window offsets that follow: DESIGN CHOICE, log entry 23. -/
def directiveWrite : Nat → List Byte → List Turn
  | _, [] => []
  | a, b :: bs => .host (.write .w8 (0x1000 + a) (b.setWidth 32)) :: directiveWrite (a + 1) bs

/-- `HOST.WCOEF i, v…`: the host stores int16 values into COEF from index i (R111). Values past COEF[1023] go on at the window
offsets that follow: DESIGN CHOICE, log entry 23. -/
def directiveWcoef : Nat → List Coef → List Turn
  | _, [] => []
  | i, x :: v => .host (.write .w16 (0x2000 + coefAddr i) (x.setWidth 32)) :: directiveWcoef (i + 1) v

/-- `HOST.POLL`: the host reads STATUS until BUSY = 0 (R111). ENGINE's turn comes first, so one read is enough; log
entry 22. -/
def directivePoll : List Turn := [.engine, .host (.read .w32 0x0004)]

/-- `HOST.CLR`: the host writes 0x300 to STATUS (R111). -/
def directiveClr : List Turn := [.host (.write .w32 0x0004 0x00000300)]

/-- The host writes a command word to CMD and polls (95_test_vectors.md part 3). -/
def submitWord (w : Word) : List Turn := .host (.write .w32 0x0000 w) :: directivePoll

/-- The turns of a program: its words submitted in order (R39). -/
def submitProgram (ws : List Word) : List Turn := ws.flatMap submitWord

end Sys2Proof.Machine
end

