-- ==== Sys2Proof/Machine/Assembler.lean ====
section
/-! DEFINITION. The assembler of 30_encoding.md R110 and R112: one line of text to the command words it stands for, or
nothing where the assembler refuses the line. What R110 does not say of the text (blanks, letter case, empty lines) is
DESIGN CHOICE, log entry 21. -/

namespace Sys2Proof.Machine

/-- A character that separates and is otherwise ignored. -/
def isBlank (ch : Char) : Bool := ch == ' ' || ch == '\t'

/-- The text without blanks at its two ends. -/
def trimBlanks (cs : List Char) : List Char := ((cs.dropWhile isBlank).reverse.dropWhile isBlank).reverse

/-- The line without its comment, which starts with ';' (R110). -/
def dropComment (cs : List Char) : List Char := cs.takeWhile (· != ';')

/-- The value of a digit in a base of at most 16. -/
def digitValue (base : Nat) (ch : Char) : Option Nat :=
  let n := ch.toNat
  let v :=
    if 48 ≤ n ∧ n ≤ 57 then n - 48
    else if 97 ≤ n ∧ n ≤ 102 then n - 87
    else if 65 ≤ n ∧ n ≤ 70 then n - 55
    else base
  if v < base then some v else none

/-- The number with these digits, after the number `m` read so far. -/
def digitsFrom (base : Nat) : Nat → List Char → Option Nat
  | m, [] => some m
  | m, ch :: cs =>
    match digitValue base ch with
    | none => none
    | some d => digitsFrom base (base * m + d) cs

/-- An unsigned integer, decimal or 0x-hex (R110). -/
def parseNumber : List Char → Option Nat
  | [] => none
  | ['0', 'x'] => none
  | '0' :: 'x' :: cs => digitsFrom 16 0 cs
  | cs => digitsFrom 10 0 cs

/-- An operand of a line. -/
inductive Operand where
  | context (c : CtxId)
  | number (n : Nat)
  deriving DecidableEq, Repr

/-- An operand: c0 to c3, or a number that fits 12 bits; anything else is refused (R110). -/
def parseOperand (cs : List Char) : Option Operand :=
  match trimBlanks cs with
  | ['c', '0'] => some (.context 0)
  | ['c', '1'] => some (.context 1)
  | ['c', '2'] => some (.context 2)
  | ['c', '3'] => some (.context 3)
  | ds =>
    match parseNumber ds with
    | none => none
    | some n => if n < 4096 then some (.number n) else none

/-- The pieces of a text between its commas. -/
def splitCommas : List Char → List (List Char)
  | [] => [[]]
  | ch :: cs =>
    match splitCommas cs with
    | [] => [[ch]]
    | p :: ps => if ch == ',' then [] :: p :: ps else (ch :: p) :: ps

/-- The operands of a line; none where there is no text. -/
def parseOperands (cs : List Char) : Option (List Operand) :=
  match trimBlanks cs with
  | [] => some []
  | ds => (splitCommas ds).mapM parseOperand

/-- The commands a mnemonic with operands stands for (R110, R112); the assembler supplies XOF.SEED's LEN. A missing or
extra operand, or one of the wrong kind, is refused. -/
def commandsOf (mnemonic : String) (ops : List Operand) : Option (List Instr) :=
  match mnemonic, ops with
  | "XOF.INIT", [.context c] => some [.xofInit c]
  | "XOF.ABSORB", [.context c, .number a, .number l] => some [.xofAbsorb c a l]
  | "XOF.FINAL", [.context c] => some [.xofFinal c]
  | "XOF.SQUEEZE", [.context c, .number a, .number l] => some [.xofSqueeze c a l]
  | "XOF.SEED", [.context c, .number a] => some [.xofSeed c a Config.seedLen]
  | "XOF.CLEAR", [.context c] => some [.xofClear c]
  | "COMP.DEC", [.number a, .number l] => some [.compDec a l]
  | "CT.ENC", [.number a, .number l] => some [.ctEnc a l]
  | "COMP.ENC", [.number a, .number l] => some [.compEnc a l]
  | "CT.DEC", [.number a, .number l] => some [.ctDec a l]
  | "BUF.ZERO", [.number a, .number l] => some [.bufZero a l]
  | "COEF.ZERO", [] => some [.coefZero]
  | "XOF.HASH", [.context c, .number a, .number l] => some (pseudoXofHash c a l)
  | "XOF.WIPE", [.context c] => some (pseudoXofWipe c)
  | "CONVERT", [.number src, .number len, .number dst] => some (pseudoConvert src len dst)
  | "COMP.ENC.SIG", [.number a] => some (pseudoCompEncSig a)
  | "WIPE.ALL", [] => some pseudoWipeAll
  | _, _ => none

/-- The commands of one line. A line with nothing but blanks and a comment stands for none. -/
def parseLine (cs : List Char) : Option (List Instr) :=
  match trimBlanks (dropComment cs) with
  | [] => some []
  | ds =>
    match parseOperands (ds.dropWhile (fun ch => !isBlank ch)) with
    | none => none
    | some ops => commandsOf (String.ofList (ds.takeWhile (fun ch => !isBlank ch))) ops

/-- The command words of one line. -/
def assembleLine (line : String) : Option (List Word) := (parseLine line.toList).map (·.map encode)

end Sys2Proof.Machine
end

