-- ==== Sys2Proof/Safety.lean ====
section
/-! DEFINITION. What claims about the block are made of: the invariant of its state, how a command ends, and what it leaves
as it was. -/

namespace Sys2Proof.Machine

/-- The invariant of a context: IDLE has no message and no output, ABSORB no output (10_state.md R33). -/
abbrev XofCtx.Ok (x : XofCtx) : Prop :=
  (x.mode = .idle → x.msg = [] ∧ x.out = 0) ∧ (x.mode = .absorb → x.out = 0)

/-- What every step keeps, from any state that has it. -/
structure State.Inv (s : State) : Prop where
  /-- R33 for every context. -/
  ctxOk : ∀ c : CtxId, s.ctx[c].Ok
  /-- BUF is in canonical form and lies in 0..4095 (20_memory.md R71). -/
  bufWf : s.buf.wf = true
  bufWithin : s.buf.within Config.bufBytes = true
  /-- COEF is in canonical form and lies in its 2048 bytes (20_memory.md R71, R73). -/
  coefWf : s.coef.wf = true
  coefWithin : s.coef.within Config.coefBytes = true
  /-- The reserved bits of STATUS are zero (R41). -/
  statusReserved : s.status &&& ~~~statusMask = 0#32
  /-- ERR takes the values 0 to 7 only (R41). -/
  errBelow8 : (statusErr s.status).toNat < 8
  /-- PENDING is non-empty exactly when BUSY = 1 (R47). -/
  busyPending : statusBusy s.status = s.pending.isSome
  /-- Bits 31:12 of RESULT are zero (R42). -/
  resultReserved : s.result &&& ~~~0x00000FFF#32 = 0#32
  /-- The index never passes the end of the program (R39). -/
  pcBound : s.pc ≤ s.program.length
  /-- The program's words from the index on are the latched one, if there is one (R39, R47). -/
  pendingNext : s.program.drop s.pc = s.pending.toList

/-- A command has completed: BUSY = 0, PENDING is empty, the index has moved on by one, and DROP and the reserved bits of
STATUS are as before (60_exceptions.md R221, R222; 10_state.md R39). The program, the host's turns and what the host last
read are no concern of a command. -/
structure Completed (s t : State) : Prop where
  busy : statusBusy t.status = false
  pending : t.pending = none
  pc : t.pc = s.pc + 1
  drop : statusDrop t.status = statusDrop s.status
  reservedLow : t.status.extractLsb' 1 3 = s.status.extractLsb' 1 3
  reservedHigh : t.status.extractLsb' 10 22 = s.status.extractLsb' 10 22
  program : t.program = s.program
  script : t.script = s.script
  busData : t.busData = s.busData

/-- `done(r)` (R221): ERR = 0, RESULT = r, ANYERR as before. What the command writes is said beside it. -/
structure Succeeded (r : Nat) (s t : State) : Prop extends Completed s t where
  err : statusErr t.status = StatusCode.ok.bits
  anyErr : statusAnyErr t.status = statusAnyErr s.status
  result : t.result.toNat = r

/-- `raise Err(code)` (R222): ERR = code, ANYERR = 1, and every context, BUF byte, COEF entry and RESULT as before. -/
structure Failed (code : StatusCode) (s t : State) : Prop extends Completed s t where
  err : statusErr t.status = code.bits
  anyErr : statusAnyErr t.status = true
  result : t.result = s.result
  ctx : t.ctx = s.ctx
  buf : t.buf = s.buf
  coef : t.coef = s.coef

/-- The command completes with this code and has no effect beyond STATUS (R222). -/
def FailsWith (code : StatusCode) (r : Result) (s : State) : Prop := ∃ t, r = .next t ∧ Failed code s t

/-- Every BUF byte reads as before. -/
def SameBuf (s t : State) : Prop := ∀ a, t.buf.read? a = s.buf.read? a

/-- Every COEF byte reads as before. -/
def SameCoef (s t : State) : Prop := ∀ a, t.coef.read? a = s.coef.read? a

/-- Every context reads as before. -/
def SameCtx (s t : State) : Prop := ∀ c : CtxId, t.ctx[c] = s.ctx[c]

/-- Every context but `c` reads as before (10_state.md R34). -/
def SameOtherCtx (c : CtxId) (s t : State) : Prop := ∀ d : CtxId, d ≠ c → t.ctx[d] = s.ctx[d]

/-- The BUF bytes from `a` on are `bs` and every BUF byte outside them reads as before (R13, R75). -/
def BufWritten (a : Nat) (bs : List Byte) (s t : State) : Prop :=
  t.buf.readBytes a bs.length = some bs ∧
    ∀ k, k < a ∨ a + bs.length ≤ k → t.buf.read? k = s.buf.read? k

/-- COEF[0..N) is `v` (41_codec.md R170). -/
def CoefIs (v : List Coef) (t : State) : Prop :=
  t.coef.readCoefs = some v ∧ ∀ i (h : i < v.length), t.coef.readCoef? i = some v[i]

/-- Some COEF entry has never been written (R48, R178). -/
def CoefUnwritten (s : State) : Prop := ∃ i < Config.n, s.coef.readCoef? i = none

/-- The two bits of XSTAT that show the mode of context `c` (10_state.md R44). -/
def xstatField (c : CtxId) (s : State) : BitVec 2 := (xstat s).extractLsb' (2 * c.val) 2

/-- R106's own words: OP is not in the table of R104, or a field that table marks "must be 0" is not zero. -/
def IllegalWord (w : Word) : Prop :=
  fieldOp w ∉ [0x01, 0x02, 0x03, 0x04, 0x05, 0x06, 0x10, 0x11, 0x12, 0x13, 0x20, 0x21] ∨
    (fieldOp w ∈ [0x01, 0x03, 0x06] ∧ (fieldAddr w ≠ 0 ∨ fieldLen w ≠ 0)) ∨
    (fieldOp w ∈ [0x10, 0x11, 0x12, 0x13, 0x20] ∧ fieldCtx w ≠ 0) ∨
    (fieldOp w = 0x21 ∧ (fieldCtx w ≠ 0 ∨ fieldAddr w ≠ 0 ∨ fieldLen w ≠ 0))

/-- A context that squeezes `l` bytes (40_xof.md R140): its next bytes and the context after them. -/
def XofCtx.advance (x : XofCtx) (l : Nat) : XofCtx := { x with out := x.out + l }

/-- The context a command names, if it names one (R104). -/
def ctxOf : Instr → Option CtxId
  | .xofInit c => some c
  | .xofAbsorb c _ _ => some c
  | .xofFinal c => some c
  | .xofSqueeze c _ _ => some c
  | .xofSeed c _ _ => some c
  | .xofClear c => some c
  | .compDec _ _ => none
  | .ctEnc _ _ => none
  | .compEnc _ _ => none
  | .ctDec _ _ => none
  | .bufZero _ _ => none
  | .coefZero => none

/-- The same outcome with its next state, if it has one, changed by `f`. -/
def mapNext (f : State → State) : Result → Result
  | .next t => .next (f t)
  | .fault r => .fault r
  | .refused r => .refused r

/-- Slot `u` of a constant-time stream: its bits [12u, 12u + 12), most significant first (41_codec.md R181). -/
def ctSlot (s : List Byte) (u : Nat) : BitVec 12 := BitVec.ofNat 12 (natOfBits (((bitsOfBytes s).drop (12 * u)).take 12))

/-- The bytes a context puts out when it squeezes these lengths one after another (40_xof.md R140). -/
def XofCtx.squeezeAll : List Nat → XofCtx → List Byte
  | [], _ => []
  | l :: ls, x => x.nextBytes l ++ XofCtx.squeezeAll ls (x.advance l)

/-- Every coefficient of a vector of N is one that either format can hold (41_codec.md R173). -/
def GoodVector (v : List Coef) : Prop := v.length = Config.n ∧ ∀ x ∈ v, coefInRange x = true

/-- The accesses R77 allows to BUF or COEF at an offset: 8, 16 or 32 bits, naturally aligned. -/
def StorageAccess (w : Width) (o : Nat) : Prop := w ≠ .w64 ∧ o % w.bytes = 0

/-- The outcome is no fault and no refusal. -/
def AnswersNext (r : Result) : Prop := ∃ t, r = .next t

end Sys2Proof.Machine
end

