-- ==== Sys2Proof/Certificates/Slice0/Obligations.lean ====
section
/-! DEFINITION. The statements about the model, each from the rules of spec/ its docstring names. -/

open Sys2Proof Sys2Proof.Machine

/-! ### Reset and the invariant -/

/-- R260: reset empties PENDING and gives every piece of state its reset value, from any state. -/
def Obligations.ResetTurnSetsResetValues : Prop :=
  ∀ (s : State) (ts : List Turn), s.script = .reset :: ts →
    ∃ t, step s = .next t ∧ t.pending = none ∧
      (∀ c : CtxId, t.ctx[c] = { mode := .idle, msg := [], out := 0 } ∧
        t.ctx[c].sponge = { bytes := List.replicate 200 0, pos := 0 }) ∧
      t.status = 0x00000000 ∧ t.result = 0x00000000 ∧ xstat t = 0x00000000 ∧ readReg .param t = 0x01000C4A ∧
      (∀ a, t.buf.read? a = none) ∧ (∀ i, t.coef.readCoef? i = none)

/-- R48, and R39's "starting at 0": what `State.reset` holds. That the program is empty after reset is the model's choice,
log entry 7. -/
def Obligations.ResetStateValues : Prop :=
  (∀ c : CtxId, State.reset.ctx[c] = { mode := .idle, msg := [], out := 0 }) ∧
    State.reset.status = 0x00000000 ∧ State.reset.result = 0x00000000 ∧ xstat State.reset = 0x00000000 ∧
    State.reset.pending = none ∧ State.reset.buf = [] ∧ State.reset.coef = [] ∧
    State.reset.program = [] ∧ State.reset.pc = 0

/-- The invariant holds after reset. -/
def Obligations.ResetMeetsTheInvariant : Prop := State.reset.Inv

/-- Every step keeps the invariant: contexts (R33), canonical memories inside their spaces (R71), the reserved bits of
STATUS and RESULT and ERR below 8 (R41, R42), BUSY exactly when PENDING is non-empty (R47), the index at the latched
command (R39). -/
def Obligations.EveryStepKeepsTheInvariant : Prop :=
  ∀ s t : State, s.Inv → step s = .next t → t.Inv

/-- R33: the invariants of a context hold after reset and every command preserves them. -/
def Obligations.CommandsKeepContextInvariants : Prop :=
  (∀ c : CtxId, State.reset.ctx[c].Ok) ∧
    ∀ (i : Instr) (s t : State), exec i s = .next t → (∀ c : CtxId, s.ctx[c].Ok) → ∀ c : CtxId, t.ctx[c].Ok

/-! ### Encoding -/

/-- R100, R104, R108: decoding an encoded well-formed command gives it back, whatever its operands. -/
def Obligations.DecodeOfEncodeIsTheCommand : Prop :=
  ∀ i : Instr, i.wellFormed = true → decode (encode i) = .ok i

/-- R100, R104, R108: a word that decodes is the word of one well-formed command, the one it decodes to. -/
def Obligations.EncodeOfDecodeIsTheWord : Prop :=
  ∀ (w : Word) (i : Instr), decode w = .ok i → i.wellFormed = true ∧ encode i = w

/-- R109: a word selects the row of the command it decodes to and no other, and a word that is illegal selects no row. -/
def Obligations.DecodeFollowsMatchAndMask : Prop :=
  ∀ w : Word,
    (∀ i, decode w = .ok i → ∀ r ∈ opcodeRows, (w &&& r.mask = r.pattern ↔ r.mnemonic = i.mnemonic)) ∧
      ((∃ e, decode w = .error e) ↔ ∀ r ∈ opcodeRows, w &&& r.mask ≠ r.pattern)

/-- R104, R109: words written out from the encodings of the table, one of each family, and two illegal ones. -/
def Obligations.WrittenOutWordsDecode : Prop :=
  decode 0b000001_10_000000000000_000000000000 = .ok (.xofInit 2) ∧
    decode 0b000010_00_000000000000_000000000011 = .ok (.xofAbsorb 0 0 3) ∧
    decode 0b010000_00_000000000001_010010000000 = .ok (.compDec 1 1152) ∧
    decode 0b100000_00_111111111111_000000000001 = .ok (.bufZero 4095 1) ∧
    decode 0b100001_00_000000000000_000000000000 = .ok .coefZero ∧
    decode 0b000000_00_000000000000_000000000000 = .error .unassignedOp ∧
    decode 0b010000_01_000000000000_010010000000 = .error .reservedField

/-! ### Steps -/

/-- R47, R84: when a command is latched and it is ENGINE's turn, the step is that command's `exec`; when it is the HOST's
turn, the step is its one access. Whose turn it is stands in the script, the model's form of R84's interleaving (log
entry 8). -/
def Obligations.StepRunsTheLatchedCommand : Prop :=
  (∀ (s : State) (w : Word) (i : Instr), s.pending = some w → decode w = .ok i →
    (s.script = [] → step s = exec i s) ∧
      ∀ ts, s.script = .engine :: ts → step s = exec i { s with script := ts }) ∧
  ∀ (s : State) (x : Access) (ts : List Turn), s.script = .host x :: ts →
    step s = hostAccess x { s with script := ts }

/-- R106: a word is illegal exactly when its OP is unassigned or a must-be-zero field is not zero, and ENGINE then ends it
with ILLEGAL in every state: no context, BUF or COEF byte changes, RESULT stays, ERR = 1, ANYERR = 1. -/
def Obligations.IllegalWordsFailWithIllegal : Prop :=
  ∀ w : Word, (IllegalWord w ↔ ∃ e, decode w = .error e) ∧
    ∀ s : State, s.pending = some w → IllegalWord w → FailsWith .illegal (engineStep s) s

/-- R47, R237: with nothing latched ENGINE has no step; the block is idle and keeps all state. -/
def Obligations.IdleBlockKeepsAllState : Prop :=
  ∀ s : State, s.pending = none → s.script = [] → step s = .next s

/-- R39, R119: whatever word ENGINE completes, with success or failure, the index moves on by exactly one and the program
stays; a CMD write that is dropped moves nothing; and of all steps only ENGINE's on a latched word moves the index, but for
reset, after which it is 0. -/
def Obligations.IndexMovesOnByOne : Prop :=
  (∀ (w : Word) (s t : State), execWord w s = .next t → t.pc = s.pc + 1 ∧ t.program = s.program) ∧
  (∀ (w : Word) (s : State), statusBusy s.status = true →
    (writeCmd w s).pc = s.pc ∧ (writeCmd w s).program = s.program) ∧
  ∀ s t : State, step s = .next t →
    (∀ w, s.pending = some w → (s.script = [] ∨ ∃ ts, s.script = .engine :: ts) → t.pc = s.pc + 1) ∧
    (s.pending = none → (s.script = [] ∨ ∃ ts, s.script = .engine :: ts) → t.pc = s.pc) ∧
    (∀ x ts, s.script = .host x :: ts → t.pc = s.pc) ∧
    ∀ ts, s.script = .reset :: ts → t.pc = 0

/-! ### How commands end -/

/-- R222: whatever word ENGINE completes with ERR not zero, the command leaves every context, every BUF byte, every COEF
entry and RESULT as they were, sets ANYERR, leaves DROP, empties PENDING and clears BUSY. -/
def Obligations.FailedCommandsChangeOnlyStatus : Prop :=
  ∀ (w : Word) (s t : State), execWord w s = .next t → statusErr t.status ≠ 0 →
    ∃ e, e ≠ StatusCode.ok ∧ Failed e s t

/-- R221: whatever word ENGINE completes with ERR = 0 sets RESULT to a count of at most 4095, leaves ANYERR and DROP, empties
PENDING and clears BUSY. -/
def Obligations.SuccessfulCommandsReportACount : Prop :=
  ∀ (w : Word) (s t : State), execWord w s = .next t → statusErr t.status = 0 →
    ∃ r, r < 4096 ∧ Succeeded r s t

/-- R34: no command writes a context it does not name, and none reads one: changing such a context changes nothing else of
the outcome. The codec and buffer commands name none. -/
def Obligations.CommandsTouchOnlyTheirContext : Prop :=
  ∀ (i : Instr) (s : State) (d : CtxId), ctxOf i ≠ some d →
    (∀ t, exec i s = .next t → t.ctx[d] = s.ctx[d]) ∧
      ∀ x : XofCtx, exec i (s.setCtx d x) = mapNext (fun t => t.setCtx d x) (exec i s)

/-! ### The XOF commands -/

/-- R141: XOF.INIT, from any mode; its word is illegal when ADDR or LEN is not zero. -/
def Obligations.XofInitStartsAnEmptyMessage : Prop :=
  (∀ (c : CtxId) (s : State), ∃ t, exec (.xofInit c) s = .next t ∧ Succeeded 0 s t ∧
    t.ctx[c] = { mode := .absorb, msg := [], out := 0 } ∧ xstatField c t = 0b01 ∧
    SameOtherCtx c s t ∧ SameBuf s t ∧ SameCoef s t) ∧
  ∀ w : Word, fieldOp w = 0x01 →
    (fieldAddr w = 0 ∧ fieldLen w = 0 → decode w = .ok (.xofInit (fieldCtx w))) ∧
      (fieldAddr w ≠ 0 ∨ fieldLen w ≠ 0 → ∀ s, FailsWith .illegal (execWord w s) s)

/-- R142: XOF.ABSORB appends the region's bytes (those of a written region, R48); RANGE, then STATE. -/
def Obligations.XofAbsorbAppendsTheRegion : Prop :=
  ∀ (c : CtxId) (a l : Nat) (s : State), l < 4096 →
    (∀ bs, a + l ≤ 4096 → s.ctx[c].mode = .absorb → s.buf.readBytes a l = some bs →
      ∃ t, exec (.xofAbsorb c a l) s = .next t ∧ Succeeded l s t ∧
        t.ctx[c] = { mode := .absorb, msg := s.ctx[c].msg ++ bs, out := s.ctx[c].out } ∧
        SameOtherCtx c s t ∧ SameBuf s t ∧ SameCoef s t) ∧
    (4096 < a + l → FailsWith .range (exec (.xofAbsorb c a l) s) s) ∧
    (a + l ≤ 4096 → s.ctx[c].mode ≠ .absorb → FailsWith .state (exec (.xofAbsorb c a l) s) s)

/-- R143: XOF.FINAL keeps the message and goes to output mode; STATE outside input mode; its word is illegal when ADDR or LEN
is not zero. -/
def Obligations.XofFinalEntersOutputMode : Prop :=
  (∀ (c : CtxId) (s : State),
    (s.ctx[c].mode = .absorb → ∃ t, exec (.xofFinal c) s = .next t ∧ Succeeded 0 s t ∧
      t.ctx[c] = { mode := .squeeze, msg := s.ctx[c].msg, out := 0 } ∧ xstatField c t = 0b10 ∧
      SameOtherCtx c s t ∧ SameBuf s t ∧ SameCoef s t) ∧
    (s.ctx[c].mode ≠ .absorb → FailsWith .state (exec (.xofFinal c) s) s)) ∧
  ∀ w : Word, fieldOp w = 0x03 →
    (fieldAddr w = 0 ∧ fieldLen w = 0 → decode w = .ok (.xofFinal (fieldCtx w))) ∧
      (fieldAddr w ≠ 0 ∨ fieldLen w ≠ 0 → ∀ s, FailsWith .illegal (execWord w s) s)

/-- R144: XOF.SQUEEZE writes SHAKE256(msg, out + l)[out .. out + l) to the region and moves the output position; RANGE, then
STATE. -/
def Obligations.XofSqueezeWritesTheNextBytes : Prop :=
  ∀ (c : CtxId) (a l : Nat) (s : State), l < 4096 →
    (a + l ≤ 4096 → s.ctx[c].mode = .squeeze → s.buf.wf = true →
      ∃ t, exec (.xofSqueeze c a l) s = .next t ∧ Succeeded l s t ∧
        ((shake256 s.ctx[c].msg (s.ctx[c].out + l)).drop s.ctx[c].out).length = l ∧
        BufWritten a ((shake256 s.ctx[c].msg (s.ctx[c].out + l)).drop s.ctx[c].out) s t ∧
        t.ctx[c] = { mode := .squeeze, msg := s.ctx[c].msg, out := s.ctx[c].out + l } ∧
        SameOtherCtx c s t ∧ SameCoef s t) ∧
    (4096 < a + l → FailsWith .range (exec (.xofSqueeze c a l) s) s) ∧
    (a + l ≤ 4096 → s.ctx[c].mode ≠ .squeeze → FailsWith .state (exec (.xofSqueeze c a l) s) s)

/-- R145: XOF.SEED takes 48 bytes (of a written region, R48) from any mode; ARG, then RANGE. -/
def Obligations.XofSeedTakesFortyEightBytes : Prop :=
  ∀ (c : CtxId) (a l : Nat) (s : State),
    (∀ bs, l = 48 → a + 48 ≤ 4096 → s.buf.readBytes a 48 = some bs →
      ∃ t, exec (.xofSeed c a l) s = .next t ∧ Succeeded 48 s t ∧
        t.ctx[c] = { mode := .squeeze, msg := bs, out := 0 } ∧ xstatField c t = 0b10 ∧
        SameOtherCtx c s t ∧ SameBuf s t ∧ SameCoef s t) ∧
    (l ≠ 48 → FailsWith .arg (exec (.xofSeed c a l) s) s) ∧
    (l = 48 → 4096 < a + 48 → FailsWith .range (exec (.xofSeed c a l) s) s)

/-- R146: XOF.CLEAR, from any mode, leaves (IDLE, empty, 0) and a zero sponge; its word is illegal when ADDR or LEN is not
zero. -/
def Obligations.XofClearZeroizesTheContext : Prop :=
  (∀ (c : CtxId) (s : State), ∃ t, exec (.xofClear c) s = .next t ∧ Succeeded 0 s t ∧
    t.ctx[c] = { mode := .idle, msg := [], out := 0 } ∧
    t.ctx[c].sponge = { bytes := List.replicate 200 0, pos := 0 } ∧ xstatField c t = 0b00 ∧
    SameOtherCtx c s t ∧ SameBuf s t ∧ SameCoef s t) ∧
  ∀ w : Word, fieldOp w = 0x06 →
    (fieldAddr w = 0 ∧ fieldLen w = 0 → decode w = .ok (.xofClear (fieldCtx w))) ∧
      (fieldAddr w ≠ 0 ∨ fieldLen w ≠ 0 → ∀ s, FailsWith .illegal (execWord w s) s)

/-- R147 (1): two absorbs leave the context one absorb of the joined bytes leaves. -/
def Obligations.SplitAbsorbIsOneAbsorb : Prop :=
  ∀ (c : CtxId) (a i b j d : Nat) (x y : List Byte) (s : State),
    i < 4096 → j < 4096 → i + j < 4096 → a + i ≤ 4096 → b + j ≤ 4096 → d + (i + j) ≤ 4096 →
    s.ctx[c].mode = .absorb → s.buf.readBytes a i = some x → s.buf.readBytes b j = some y →
    s.buf.readBytes d (i + j) = some (x ++ y) →
    ∃ t1 t2 u, exec (.xofAbsorb c a i) s = .next t1 ∧ exec (.xofAbsorb c b j) t1 = .next t2 ∧
      exec (.xofAbsorb c d (i + j)) s = .next u ∧ t2.ctx[c] = u.ctx[c]

/-- R147 (2): two squeezes write the bytes one squeeze writes and leave the context it leaves. -/
def Obligations.SplitSqueezeIsOneSqueeze : Prop :=
  ∀ (c : CtxId) (a l1 l2 : Nat) (s : State),
    l1 + l2 < 4096 → a + l1 + l2 ≤ 4096 → s.ctx[c].mode = .squeeze → s.buf.wf = true →
    ∃ t1 t2 u, exec (.xofSqueeze c a l1) s = .next t1 ∧ exec (.xofSqueeze c (a + l1) l2) t1 = .next t2 ∧
      exec (.xofSqueeze c a (l1 + l2)) s = .next u ∧ t2.buf = u.buf ∧ t2.ctx[c] = u.ctx[c]

/-- R147 (3): contexts with equal (mode, msg, out), of whatever number, in whatever state, put out equal bytes. -/
def Obligations.EqualContextsPutOutEqualBytes : Prop :=
  ∀ (c d : CtxId) (a b l : Nat) (s s' : State), l < 4096 → a + l ≤ 4096 → b + l ≤ 4096 →
    s.ctx[c].mode = .squeeze → s.ctx[c] = s'.ctx[d] → s.buf.wf = true → s'.buf.wf = true →
    ∃ t t' bs, exec (.xofSqueeze c a l) s = .next t ∧ exec (.xofSqueeze d b l) s' = .next t' ∧
      t.buf.readBytes a l = some bs ∧ t'.buf.readBytes b l = some bs

/-- R147 (5), R145: SEED leaves the context that INIT, ABSORB of the 48 bytes and FINAL leave. -/
def Obligations.SeedIsInitAbsorbFinal : Prop :=
  ∀ (c : CtxId) (a : Nat) (bs : List Byte) (s : State), a + 48 ≤ 4096 → s.buf.readBytes a 48 = some bs →
    ∃ t u, exec (.xofSeed c a 48) s = .next t ∧ runCommands (pseudoXofHash c a 48) s = .next u ∧ t.ctx = u.ctx

/-- R140: every byte a context puts out since it entered SQUEEZE, in order, is SHAKE256(msg, total). -/
def Obligations.SqueezedStreamIsShake : Prop :=
  ∀ (x : XofCtx) (ls : List Nat), x.mode = .squeeze → x.out = 0 → XofCtx.squeezeAll ls x = shake256 x.msg ls.sum

/-- R150 to R154, R159: the sponge behind a context follows the concrete realization, command by command, and SQUEEZE writes
the bytes it squeezes. -/
def Obligations.SpongeFollowsTheCommands : Prop :=
  ∀ (c : CtxId) (s : State),
    (∃ t, exec (.xofInit c) s = .next t ∧ t.ctx[c].sponge = Sponge.zero) ∧
    (∃ t, exec (.xofClear c) s = .next t ∧ t.ctx[c].sponge = Sponge.zero) ∧
    (∀ a l bs, a + l ≤ 4096 → s.ctx[c].mode = .absorb → s.buf.readBytes a l = some bs →
      ∃ t, exec (.xofAbsorb c a l) s = .next t ∧ t.ctx[c].sponge = s.ctx[c].sponge.absorb bs) ∧
    (s.ctx[c].mode = .absorb → ∃ t, exec (.xofFinal c) s = .next t ∧ t.ctx[c].sponge = s.ctx[c].sponge.finalize) ∧
    (∀ a l, a + l ≤ 4096 → s.ctx[c].mode = .squeeze → s.buf.wf = true →
      ∃ t, exec (.xofSqueeze c a l) s = .next t ∧
        t.buf.readBytes a l = some (Sponge.squeeze l s.ctx[c].sponge).1 ∧
        t.ctx[c].sponge = (Sponge.squeeze l s.ctx[c].sponge).2) ∧
    (∀ a bs, a + 48 ≤ 4096 → s.buf.readBytes a 48 = some bs →
      ∃ t, exec (.xofSeed c a 48) s = .next t ∧ t.ctx[c].sponge = (Sponge.zero.absorb bs).finalize)

/-- R14: the model's SHAKE256 gives L bytes, a prefix of what it gives for a greater length. -/
def Obligations.ShakeOutputsArePrefixes : Prop :=
  ∀ (M : List Byte) (L L' : Nat), L ≤ L' → (shake256 M L).length = L ∧ shake256 M L <+: shake256 M L'

/-! ### The codec commands -/

/-- R175: COMP.DEC, on a region that has been written, accepts exactly the streams COMP.ENC's encoder makes of vectors in
range and gives back the vector; every other stream is FORMAT, those of less than 1152 or more than 3072 bytes among them;
RANGE comes first; its word is illegal when CTX is not zero. -/
def Obligations.CompDecAcceptsExactlyEncodedVectors : Prop :=
  (∀ (a l : Nat) (s : State) (bs : List Byte), l < 4096 → a + l ≤ 4096 → s.buf.readBytes a l = some bs →
    (∀ v, GoodVector v → compEncode v = bs → s.coef.wf = true →
      ∃ t, exec (.compDec a l) s = .next t ∧ Succeeded l s t ∧ CoefIs v t ∧ SameCtx s t ∧ SameBuf s t) ∧
    ((∀ v, GoodVector v → compEncode v ≠ bs) → FailsWith .format (exec (.compDec a l) s) s) ∧
    (l < 1152 ∨ 3072 < l → FailsWith .format (exec (.compDec a l) s) s)) ∧
  (∀ (a l : Nat) (s : State), 4096 < a + l → FailsWith .range (exec (.compDec a l) s) s) ∧
  ∀ w : Word, fieldOp w = 0x10 →
    (fieldCtx w = 0 → decode w = .ok (.compDec (fieldAddr w) (fieldLen w))) ∧
      (fieldCtx w ≠ 0 → ∀ s, FailsWith .illegal (execWord w s) s)

/-- R176, R177: CT.ENC writes the 1536 bytes of the constant-time stream and no others; RANGE, VALUE, OVERFLOW in that order;
its word is illegal when CTX is not zero. COEF is one that has been written (R178). -/
def Obligations.CtEncWritesTheFixedWidthStream : Prop :=
  (∀ (a l : Nat) (s : State) (v : List Coef), a + l ≤ 4096 → s.coef.readCoefs = some v →
    ((∀ x ∈ v, coefInRange x = true) → 1536 ≤ l → s.buf.wf = true →
      ∃ t, exec (.ctEnc a l) s = .next t ∧ Succeeded 1536 s t ∧ (ctEncode v).length = 1536 ∧
        BufWritten a (ctEncode v) s t ∧ SameCtx s t ∧ SameCoef s t) ∧
    ((∃ x ∈ v, coefInRange x = false) → FailsWith .value (exec (.ctEnc a l) s) s) ∧
    ((∀ x ∈ v, coefInRange x = true) → l < 1536 → FailsWith .overflow (exec (.ctEnc a l) s) s)) ∧
  (∀ (a l : Nat) (s : State), 4096 < a + l → FailsWith .range (exec (.ctEnc a l) s) s) ∧
  ∀ w : Word, fieldOp w = 0x11 →
    (fieldCtx w = 0 → decode w = .ok (.ctEnc (fieldAddr w) (fieldLen w))) ∧
      (fieldCtx w ≠ 0 → ∀ s, FailsWith .illegal (execWord w s) s)

/-- R180: COMP.ENC writes the r bytes of the compressed stream and no others, 1152 to 3072 of them; RANGE, VALUE, OVERFLOW
in that order; its word is illegal when CTX is not zero. COEF is one that has been written (R178). -/
def Obligations.CompEncWritesTheCompressedStream : Prop :=
  (∀ (a l : Nat) (s : State) (v : List Coef), l < 4096 → a + l ≤ 4096 → s.coef.readCoefs = some v →
    ((∀ x ∈ v, coefInRange x = true) → (compEncode v).length ≤ l → s.buf.wf = true →
      ∃ t, exec (.compEnc a l) s = .next t ∧ Succeeded (compEncode v).length s t ∧
        1152 ≤ (compEncode v).length ∧ (compEncode v).length ≤ 3072 ∧
        BufWritten a (compEncode v) s t ∧ SameCtx s t ∧ SameCoef s t) ∧
    ((∃ x ∈ v, coefInRange x = false) → FailsWith .value (exec (.compEnc a l) s) s) ∧
    ((∀ x ∈ v, coefInRange x = true) → l < (compEncode v).length → FailsWith .overflow (exec (.compEnc a l) s) s)) ∧
  (∀ (a l : Nat) (s : State), 4096 < a + l → FailsWith .range (exec (.compEnc a l) s) s) ∧
  ∀ w : Word, fieldOp w = 0x12 →
    (fieldCtx w = 0 → decode w = .ok (.compEnc (fieldAddr w) (fieldLen w))) ∧
      (fieldCtx w ≠ 0 → ∀ s, FailsWith .illegal (execWord w s) s)

/-- R181: CT.DEC sign-extends the 1024 slots of a region that has been written; RANGE, FORMAT for a length that is not 1536,
FORMAT for a slot 0x800; its word is illegal when CTX is not zero. -/
def Obligations.CtDecSignExtendsTheSlots : Prop :=
  (∀ (a : Nat) (s : State) (bs : List Byte), a + 1536 ≤ 4096 → s.buf.readBytes a 1536 = some bs →
    ((∀ u < 1024, ctSlot bs u ≠ 0x800) → s.coef.wf = true →
      ∃ t, exec (.ctDec a 1536) s = .next t ∧ Succeeded 1536 s t ∧
        CoefIs ((List.range 1024).map fun u => (ctSlot bs u).signExtend 16) t ∧ SameCtx s t ∧ SameBuf s t) ∧
    ((∃ u < 1024, ctSlot bs u = 0x800) → FailsWith .format (exec (.ctDec a 1536) s) s)) ∧
  (∀ (a l : Nat) (s : State), 4096 < a + l → FailsWith .range (exec (.ctDec a l) s) s) ∧
  (∀ (a l : Nat) (s : State), a + l ≤ 4096 → l ≠ 1536 → FailsWith .format (exec (.ctDec a l) s) s) ∧
  ∀ w : Word, fieldOp w = 0x13 →
    (fieldCtx w = 0 → decode w = .ok (.ctDec (fieldAddr w) (fieldLen w))) ∧
      (fieldCtx w ≠ 0 → ∀ s, FailsWith .illegal (execWord w s) s)

/-- R171: the bits of a compressed stream are the codes e(v[u]) one after another and at most seven zero bits; each code is
sign, low 7 bits, m >> 7 zeros and a one; the stream of N coefficients in range has 1152 to 3072 bytes. -/
def Obligations.CompressedStreamLayout : Prop :=
  (∀ v : List Coef, GoodVector v →
    ∃ p, p ≤ 7 ∧ bitsOfBytes (compEncode v) = v.flatMap compEncodeCoef ++ List.replicate p false ∧
      1152 ≤ (compEncode v).length ∧ (compEncode v).length ≤ 3072) ∧
  ∀ x : Coef, coefInRange x = true →
    (compEncodeCoef x).length = 9 + x.toInt.natAbs / 128 ∧
    (compEncodeCoef x)[0]? = some (decide (x.toInt < 0)) ∧
    (∀ k < 7, (compEncodeCoef x)[1 + k]? = some (x.toInt.natAbs.testBit (6 - k))) ∧
    (∀ k < x.toInt.natAbs / 128, (compEncodeCoef x)[8 + k]? = some false) ∧
    (compEncodeCoef x)[8 + x.toInt.natAbs / 128]? = some true

/-- R172: bits [12u, 12u + 12) of a constant-time stream are the 12-bit pattern of v[u], most significant first, and there
is no padding. -/
def Obligations.ConstantTimeStreamLayout : Prop :=
  ∀ v : List Coef, GoodVector v →
    (ctEncode v).length = 1536 ∧ ∀ u (h : u < v.length), ctSlot (ctEncode v) u = v[u].setWidth 12

/-- R173: either decoder can give a vector of N coefficients exactly when every one of them is in [-2047, 2047]. -/
def Obligations.BothFormatsHoldTheSameVectors : Prop :=
  ∀ v : List Coef, v.length = 1024 →
    ((∃ s, compDecode 1024 s = some v) ↔ ∀ x ∈ v, -2047 ≤ x.toInt ∧ x.toInt ≤ 2047) ∧
      ((∃ s, s.length = 1536 ∧ ctDecode s = some v) ↔ ∀ x ∈ v, -2047 ≤ x.toInt ∧ x.toInt ≤ 2047)

/-- R182: COMP.ENC and then COMP.DEC of the bytes it wrote restores COEF, whatever COEF came to hold between them. -/
def Obligations.CompEncThenCompDecRestoresCoef : Prop :=
  ∀ (a l : Nat) (s : State) (v : List Coef) (m : Memory), l < 4096 → a + l ≤ 4096 → s.buf.wf = true → m.wf = true →
    s.coef.readCoefs = some v → (∀ x ∈ v, coefInRange x = true) → (compEncode v).length ≤ l →
    ∃ t u, exec (.compEnc a l) s = .next t ∧
      exec (.compDec a t.result.toNat) { t with coef := m } = .next u ∧ statusErr u.status = 0 ∧ CoefIs v u

/-- R182: CT.ENC and then CT.DEC of the bytes it wrote restores COEF, whatever COEF came to hold between them. -/
def Obligations.CtEncThenCtDecRestoresCoef : Prop :=
  ∀ (a l : Nat) (s : State) (v : List Coef) (m : Memory), 1536 ≤ l → a + l ≤ 4096 → s.buf.wf = true → m.wf = true →
    s.coef.readCoefs = some v → (∀ x ∈ v, coefInRange x = true) →
    ∃ t u, exec (.ctEnc a l) s = .next t ∧
      exec (.ctDec a 1536) { t with coef := m } = .next u ∧ statusErr u.status = 0 ∧ CoefIs v u

/-- R182: COMP.ENC of the vector COMP.DEC decoded writes the stream again, wherever it goes. -/
def Obligations.CompDecThenCompEncRewritesTheStream : Prop :=
  ∀ (a l b k : Nat) (s t : State) (bs : List Byte), s.buf.wf = true → s.coef.wf = true →
    s.buf.readBytes a l = some bs → exec (.compDec a l) s = .next t → statusErr t.status = 0 →
    l ≤ k → k < 4096 → b + k ≤ 4096 →
    ∃ u, exec (.compEnc b k) t = .next u ∧ Succeeded l t u ∧ BufWritten b bs t u

/-- R182: CT.ENC of the vector CT.DEC decoded writes the stream again, wherever it goes. -/
def Obligations.CtDecThenCtEncRewritesTheStream : Prop :=
  ∀ (a b k : Nat) (s t : State) (bs : List Byte), s.buf.wf = true → s.coef.wf = true →
    s.buf.readBytes a 1536 = some bs → exec (.ctDec a 1536) s = .next t → statusErr t.status = 0 →
    1536 ≤ k → b + k ≤ 4096 →
    ∃ u, exec (.ctEnc b k) t = .next u ∧ Succeeded 1536 t u ∧ BufWritten b bs t u

/-- R183: CONVERT after an accepted stream writes the constant-time stream of the decoded vector when the destination fits,
and is RANGE when it does not; its CT.ENC never fails VALUE after a COMP.DEC that succeeded; when COMP.DEC fails, CT.ENC
still runs, on the old COEF. -/
def Obligations.ConvertReencodesTheVector : Prop :=
  (∀ (src len dst : Nat) (s : State) (v : List Coef) (bs : List Byte), s.buf.wf = true → s.coef.wf = true →
    len < 4096 → src + len ≤ 4096 → s.buf.readBytes src len = some bs → GoodVector v → compEncode v = bs →
    ∃ t, exec (.compDec src len) s = .next t ∧ Succeeded len s t ∧
      (dst + 1536 ≤ 4096 → ∃ u, exec (.ctEnc dst 1536) t = .next u ∧
        runCommands (pseudoConvert src len dst) s = .next u ∧ Succeeded 1536 t u ∧ CoefIs v u ∧
        BufWritten dst (ctEncode v) s u) ∧
      (4096 < dst + 1536 → FailsWith .range (exec (.ctEnc dst 1536) t) t)) ∧
  (∀ (src len dst : Nat) (s t u : State), s.coef.wf = true → exec (.compDec src len) s = .next t →
    statusErr t.status = 0 → exec (.ctEnc dst 1536) t = .next u → statusErr u.status ≠ StatusCode.value.bits) ∧
  ∀ (src len dst : Nat) (s t : State), exec (.compDec src len) s = .next t → statusErr t.status ≠ 0 →
    t.coef = s.coef ∧ runCommands (pseudoConvert src len dst) s = exec (.ctEnc dst 1536) t

/-! ### The buffer commands -/

/-- R210: BUF.ZERO writes l zero bytes to the region and nothing else; RANGE writes nothing; its word is illegal when CTX is
not zero. -/
def Obligations.BufZeroZeroesTheRegion : Prop :=
  (∀ (a l : Nat) (s : State), l < 4096 →
    (a + l ≤ 4096 → s.buf.wf = true → ∃ t, exec (.bufZero a l) s = .next t ∧ Succeeded l s t ∧
      BufWritten a (List.replicate l 0) s t ∧ SameCtx s t ∧ SameCoef s t) ∧
    (4096 < a + l → FailsWith .range (exec (.bufZero a l) s) s)) ∧
  ∀ w : Word, fieldOp w = 0x20 →
    (fieldCtx w = 0 → decode w = .ok (.bufZero (fieldAddr w) (fieldLen w))) ∧
      (fieldCtx w ≠ 0 → ∀ s, FailsWith .illegal (execWord w s) s)

/-- R211: COEF.ZERO writes 1024 zeros; its word is illegal when any of CTX, ADDR, LEN is not zero. -/
def Obligations.CoefZeroZeroesEveryEntry : Prop :=
  (∀ s : State, s.coef.wf = true → ∃ t, exec .coefZero s = .next t ∧ Succeeded 0 s t ∧
    CoefIs (List.replicate 1024 0) t ∧ SameCtx s t ∧ SameBuf s t) ∧
  ∀ w : Word, fieldOp w = 0x21 →
    (fieldCtx w = 0 ∧ fieldAddr w = 0 ∧ fieldLen w = 0 → decode w = .ok .coefZero) ∧
      (fieldCtx w ≠ 0 ∨ fieldAddr w ≠ 0 ∨ fieldLen w ≠ 0 → ∀ s, FailsWith .illegal (execWord w s) s)

/-- R262: WIPE.ALL and then a write of 0x300 to STATUS leaves every context IDLE, BUF and COEF zero, STATUS = 0 and
RESULT = 0. -/
def Obligations.WipeAllLeavesAZeroBlock : Prop :=
  ∀ s : State, s.Inv →
    ∃ t u, runCommands pseudoWipeAll s = .next t ∧ hostAccess (.write .w32 0x0004 0x00000300) t = .next u ∧
      (∀ c : CtxId, u.ctx[c] = { mode := .idle, msg := [], out := 0 }) ∧
      (∀ a < 4096, u.buf.read? a = some 0) ∧ (∀ i < 1024, u.coef.readCoef? i = some 0) ∧
      u.status = 0x00000000 ∧ u.result = 0x00000000

/-! ### Storage nobody has written -/

/-- R48, R178 (93_implementation_defined.md I1): a command that passes the checks made before it reads storage faults when a
byte or an entry it reads has not been written. That these checks come first is DEDUCED, log entry 3. So does a host read of
BUF or COEF, of a width and alignment R77 allows and with BUSY = 0, when a byte it reads has not been written (an entry of
COEF by its bytes, log entry 2). -/
def Obligations.UnwrittenStorageFaults : Prop :=
  (∀ (c : CtxId) (a l : Nat) (s : State), a + l ≤ 4096 → s.ctx[c].mode = .absorb →
    (∃ k < l, s.buf.read? (a + k) = none) → exec (.xofAbsorb c a l) s = .fault .unwrittenBuf) ∧
  (∀ (c : CtxId) (a : Nat) (s : State), a + 48 ≤ 4096 →
    (∃ k < 48, s.buf.read? (a + k) = none) → exec (.xofSeed c a 48) s = .fault .unwrittenBuf) ∧
  (∀ (a l : Nat) (s : State), a + l ≤ 4096 →
    (∃ k < l, s.buf.read? (a + k) = none) → exec (.compDec a l) s = .fault .unwrittenBuf) ∧
  (∀ (a : Nat) (s : State), a + 1536 ≤ 4096 →
    (∃ k < 1536, s.buf.read? (a + k) = none) → exec (.ctDec a 1536) s = .fault .unwrittenBuf) ∧
  (∀ (a l : Nat) (s : State), a + l ≤ 4096 → CoefUnwritten s →
    exec (.ctEnc a l) s = .fault .unwrittenCoef ∧ exec (.compEnc a l) s = .fault .unwrittenCoef) ∧
  ∀ (w : Width) (a : Nat) (s : State), StorageAccess w a → statusBusy s.status = false →
    (a + w.bytes ≤ 4096 → (∃ k < w.bytes, s.buf.read? (a + k) = none) →
      hostAccess (.read w (0x1000 + a)) s = .fault .unwrittenBuf) ∧
    (a + w.bytes ≤ 2048 → (∃ k < w.bytes, s.coef.read? (a + k) = none) →
      hostAccess (.read w (0x2000 + a)) s = .fault .unwrittenCoef)

/-! ### The host window -/

/-- R40, R46, R47: a CMD write while BUSY = 0 latches the word and sets BUSY; while BUSY = 1 it is discarded and sets DROP;
nothing else changes but the program of R39, to which an accepted word is added (log entry 7). -/
def Obligations.CmdWriteIsAcceptedOrDropped : Prop :=
  ∀ (w : Word) (s : State),
    (statusBusy s.status = false → ∃ t, hostAccess (.write .w32 0x0000 w) s = .next t ∧
      t = { s with pending := some w, program := s.program ++ [w], status := t.status } ∧
      statusBusy t.status = true ∧ statusErr t.status = statusErr s.status ∧
      statusAnyErr t.status = statusAnyErr s.status ∧ statusDrop t.status = statusDrop s.status) ∧
    (statusBusy s.status = true → ∃ t, hostAccess (.write .w32 0x0000 w) s = .next t ∧
      t = { s with status := t.status } ∧
      statusBusy t.status = true ∧ statusErr t.status = statusErr s.status ∧
      statusAnyErr t.status = statusAnyErr s.status ∧ statusDrop t.status = true)

/-- R41, R272: a write to STATUS, while BUSY or not, clears ANYERR and DROP where the word has ones, changes no other bit of
STATUS and nothing else. -/
def Obligations.StatusWriteClearsByOnes : Prop :=
  ∀ (v : Word) (s : State), ∃ t, hostAccess (.write .w32 0x0004 v) s = .next t ∧ t = { s with status := t.status } ∧
    statusAnyErr t.status = (statusAnyErr s.status && !v.getLsbD 8) ∧
    statusDrop t.status = (statusDrop s.status && !v.getLsbD 9) ∧
    ∀ k, k ≠ 8 → k ≠ 9 → t.status.getLsbD k = s.status.getLsbD k

/-- R40 to R44, R272: reads of the registers answer, while BUSY or not, CMD as zero, STATUS with its reserved bits zero,
RESULT's bits 11:0, the constant PARAM, and XSTAT with the mode of context c in bits 2c+1:2c; writes to RESULT, PARAM and
XSTAT are ignored. -/
def Obligations.RegistersReadAndIgnoreWrites : Prop :=
  ∀ s : State,
    hostAccess (.read .w32 0x0000) s = .next { s with busData := some 0x00000000 } ∧
    hostAccess (.read .w32 0x0004) s = .next { s with busData := some (s.status &&& 0x000003F1) } ∧
    hostAccess (.read .w32 0x0008) s = .next { s with busData := some (s.result &&& 0x00000FFF) } ∧
    hostAccess (.read .w32 0x000C) s = .next { s with busData := some 0x01000C4A } ∧
    (∃ x, hostAccess (.read .w32 0x0010) s = .next { s with busData := some x } ∧ x.extractLsb' 8 24 = 0 ∧
      ∀ c : CtxId, x.extractLsb' (2 * c.val) 2 =
        match s.ctx[c].mode with
        | .idle => 0b00
        | .absorb => 0b01
        | .squeeze => 0b10) ∧
    ∀ v, hostAccess (.write .w32 0x0008 v) s = .next s ∧ hostAccess (.write .w32 0x000C v) s = .next s ∧
      hostAccess (.write .w32 0x0010 v) s = .next s

/-- R45: reads of reserved offsets, of any width, answer zero and writes have no effect. The accesses here lie wholly in the
reserved ranges. -/
def Obligations.ReservedOffsetsReadZeroAndIgnoreWrites : Prop :=
  ∀ (w : Width) (o : Nat) (s : State),
    (0x0014 ≤ o ∧ o + w.bytes ≤ 0x1000) ∨ (0x2800 ≤ o ∧ o + w.bytes ≤ 0x4000) →
    hostAccess (.read w o) s = .next { s with busData := some 0x00000000 } ∧
      ∀ v, hostAccess (.write w o v) s = .next s

/-- R77: an access to a register that is not 32-bit and aligned, and one to BUF or COEF that is not 8, 16 or 32 bits and
naturally aligned, is a bus error; every other access to them is none. -/
def Obligations.WrongWidthOrAlignmentIsABusError : Prop :=
  ∀ (w : Width) (o : Nat) (v : Word) (s : State),
    (o < 0x0014 →
      (¬(w = .w32 ∧ o % 4 = 0) → hostAccess (.read w o) s = .fault .busError ∧
        hostAccess (.write w o v) s = .fault .busError) ∧
      (w = .w32 ∧ o % 4 = 0 → AnswersNext (hostAccess (.read w o) s) ∧ AnswersNext (hostAccess (.write w o v) s))) ∧
    (0x1000 ≤ o → o < 0x2800 →
      (¬StorageAccess w o → hostAccess (.read w o) s = .fault .busError ∧
        hostAccess (.write w o v) s = .fault .busError) ∧
      (StorageAccess w o → hostAccess (.read w o) s ≠ .fault .busError ∧
        hostAccess (.write w o v) s ≠ .fault .busError))

/-- R271: an access to BUF or COEF while BUSY = 1, of a width and alignment R77 allows, has no step. -/
def Obligations.StorageAccessWhileBusyIsRefused : Prop :=
  ∀ (w : Width) (o : Nat) (v : Word) (s : State), 0x1000 ≤ o → o < 0x2800 → StorageAccess w o →
    statusBusy s.status = true →
    hostAccess (.read w o) s = .refused .storageAccessWhileBusy ∧
      hostAccess (.write w o v) s = .refused .storageAccessWhileBusy

/-- R73, R74: a host write to BUF puts bits 8k+7:8k of the word at address + k and changes no other byte and no other state; a
host read of written bytes answers them in the same order. -/
def Obligations.BufWindowIsLittleEndian : Prop :=
  ∀ (w : Width) (a : Nat) (s : State), a + w.bytes ≤ 4096 → StorageAccess w a → statusBusy s.status = false →
    s.buf.wf = true →
    (∀ v : Word, ∃ t, hostAccess (.write w (0x1000 + a) v) s = .next t ∧ t = { s with buf := t.buf } ∧
      (∀ k < w.bytes, t.buf.read? (a + k) = some (v.extractLsb' (8 * k) 8)) ∧
      ∀ k, k < a ∨ a + w.bytes ≤ k → t.buf.read? k = s.buf.read? k) ∧
    ∀ bs, s.buf.readBytes a w.bytes = some bs →
      ∃ x : Word, hostAccess (.read w (0x1000 + a)) s = .next { s with busData := some x } ∧
        (∀ k < w.bytes, bs[k]? = some (x.extractLsb' (8 * k) 8)) ∧ x.toNat < 2 ^ (8 * w.bytes)

/-- R72 to R74: at every width, a host write to COEF puts bits 8k+7:8k of the word at byte address + k of COEF and changes no
other byte of it and no other state, and a host read of written bytes answers them in the same order. By entries: an 8-bit
write at 0x2000 + 2i sets bits 7:0 of a written COEF[i], one at 0x2000 + 2i + 1 its bits 15:8; a 16-bit write at 0x2000 + 2i
sets COEF[i] to the word's low 16 bits; a 32-bit write at 0x2000 + 4k sets COEF[2k] to bits 15:0 and COEF[2k+1] to bits 31:16;
none changes another entry. Reads answer the same. -/
def Obligations.CoefWindowHoldsTheEntries : Prop :=
  (∀ (w : Width) (a : Nat) (s : State), a + w.bytes ≤ 2048 → StorageAccess w a → statusBusy s.status = false →
    s.coef.wf = true →
    (∀ v : Word, ∃ t, hostAccess (.write w (0x2000 + a) v) s = .next t ∧ t = { s with coef := t.coef } ∧
      (∀ k < w.bytes, t.coef.read? (a + k) = some (v.extractLsb' (8 * k) 8)) ∧
      ∀ k, k < a ∨ a + w.bytes ≤ k → t.coef.read? k = s.coef.read? k) ∧
    ∀ bs, s.coef.readBytes a w.bytes = some bs →
      ∃ x : Word, hostAccess (.read w (0x2000 + a)) s = .next { s with busData := some x } ∧
        (∀ k < w.bytes, bs[k]? = some (x.extractLsb' (8 * k) 8)) ∧ x.toNat < 2 ^ (8 * w.bytes)) ∧
  ∀ (i : Nat) (s : State), i < 1024 → statusBusy s.status = false → s.coef.wf = true →
    (∀ v : Word, ∃ t, hostAccess (.write .w16 (0x2000 + 2 * i) v) s = .next t ∧
      t.coef.readCoef? i = some (v.extractLsb' 0 16) ∧
      ∀ j, j ≠ i → t.coef.readCoef? j = s.coef.readCoef? j) ∧
    (∀ (v : Word) (x : Coef), s.coef.readCoef? i = some x →
      (∃ t, hostAccess (.write .w8 (0x2000 + 2 * i) v) s = .next t ∧
        t.coef.readCoef? i = some (x.extractLsb' 8 8 ++ v.extractLsb' 0 8) ∧
        ∀ j, j ≠ i → t.coef.readCoef? j = s.coef.readCoef? j) ∧
      ∃ t, hostAccess (.write .w8 (0x2000 + 2 * i + 1) v) s = .next t ∧
        t.coef.readCoef? i = some (v.extractLsb' 0 8 ++ x.extractLsb' 0 8) ∧
        ∀ j, j ≠ i → t.coef.readCoef? j = s.coef.readCoef? j) ∧
    (∀ (v : Word) (k : Nat), i = 2 * k → ∃ t, hostAccess (.write .w32 (0x2000 + 4 * k) v) s = .next t ∧
      t.coef.readCoef? (2 * k) = some (v.extractLsb' 0 16) ∧
      t.coef.readCoef? (2 * k + 1) = some (v.extractLsb' 16 16) ∧
      ∀ j, j ≠ 2 * k → j ≠ 2 * k + 1 → t.coef.readCoef? j = s.coef.readCoef? j) ∧
    (∀ x, s.coef.readCoef? i = some x →
      hostAccess (.read .w16 (0x2000 + 2 * i)) s = .next { s with busData := some (x.setWidth 32) } ∧
      hostAccess (.read .w8 (0x2000 + 2 * i)) s = .next { s with busData := some ((x.extractLsb' 0 8).setWidth 32) } ∧
      hostAccess (.read .w8 (0x2000 + 2 * i + 1)) s =
        .next { s with busData := some ((x.extractLsb' 8 8).setWidth 32) }) ∧
    ∀ k x y, i = 2 * k → s.coef.readCoef? (2 * k) = some x → s.coef.readCoef? (2 * k + 1) = some y →
      hostAccess (.read .w32 (0x2000 + 4 * k)) s = .next { s with busData := some (y ++ x) }

/-- R81: a read has no side effect: what changes is only what the host has read (the model's own field, log entry 10). A
write changes no context, no RESULT and not the program index. -/
def Obligations.HostAccessesHaveNoOtherEffect : Prop :=
  (∀ (w : Width) (o : Nat) (s t : State), hostAccess (.read w o) s = .next t → t = { s with busData := t.busData }) ∧
    ∀ (w : Width) (o : Nat) (v : Word) (s t : State), hostAccess (.write w o v) s = .next t →
      t.ctx = s.ctx ∧ t.result = s.result ∧ t.pc = s.pc

/-- R110, R112: the assembler's answer for any line is only well-formed command words, each of which decodes. -/
def Obligations.AssemblerEmitsOnlyLegalWords : Prop :=
  ∀ (line : String) (ws : List Word), assembleLine line = some ws →
    ∀ w ∈ ws, ∃ i : Instr, i.wellFormed = true ∧ encode i = w ∧ decode w = .ok i
end

