-- ==== Sys2Proof/Laws/State.lean ====
section
/-! SUPPORT. What each update of the state leaves in each field, so that no proof unfolds one. -/

namespace Sys2Proof.Machine

@[simp] theorem setCtx_coef (s : State) (c : CtxId) (x : XofCtx) : (s.setCtx c x).coef = s.coef := rfl
@[simp] theorem setCtx_buf (s : State) (c : CtxId) (x : XofCtx) : (s.setCtx c x).buf = s.buf := rfl
@[simp] theorem setCtx_status (s : State) (c : CtxId) (x : XofCtx) : (s.setCtx c x).status = s.status := rfl
@[simp] theorem setCtx_result (s : State) (c : CtxId) (x : XofCtx) : (s.setCtx c x).result = s.result := rfl
@[simp] theorem setCtx_pending (s : State) (c : CtxId) (x : XofCtx) : (s.setCtx c x).pending = s.pending := rfl
@[simp] theorem setCtx_program (s : State) (c : CtxId) (x : XofCtx) : (s.setCtx c x).program = s.program := rfl
@[simp] theorem setCtx_pc (s : State) (c : CtxId) (x : XofCtx) : (s.setCtx c x).pc = s.pc := rfl
@[simp] theorem setCtx_script (s : State) (c : CtxId) (x : XofCtx) : (s.setCtx c x).script = s.script := rfl
@[simp] theorem setCtx_busData (s : State) (c : CtxId) (x : XofCtx) : (s.setCtx c x).busData = s.busData := rfl

/-- The context that was set reads as set. -/
@[simp] theorem setCtx_ctx_self (s : State) (c : CtxId) (x : XofCtx) : (s.setCtx c x).ctx[c] = x := by
  simp [State.setCtx]

/-- Every other context reads as before (R34). -/
theorem setCtx_ctx_other (s : State) (c d : CtxId) (x : XofCtx) (h : d ≠ c) : (s.setCtx c x).ctx[d] = s.ctx[d] := by
  have h' : ¬ c.val = d.val := fun e => h (Fin.ext e.symm)
  simp [State.setCtx, h']

@[simp] theorem complete_ctx (s : State) (e : StatusCode) : (s.complete e).ctx = s.ctx := rfl
@[simp] theorem complete_coef (s : State) (e : StatusCode) : (s.complete e).coef = s.coef := rfl
@[simp] theorem complete_buf (s : State) (e : StatusCode) : (s.complete e).buf = s.buf := rfl
@[simp] theorem complete_status (s : State) (e : StatusCode) : (s.complete e).status = statusComplete e s.status := rfl
@[simp] theorem complete_result (s : State) (e : StatusCode) : (s.complete e).result = s.result := rfl
@[simp] theorem complete_pending (s : State) (e : StatusCode) : (s.complete e).pending = none := rfl
@[simp] theorem complete_program (s : State) (e : StatusCode) : (s.complete e).program = s.program := rfl
@[simp] theorem complete_pc (s : State) (e : StatusCode) : (s.complete e).pc = s.pc + 1 := rfl
@[simp] theorem complete_script (s : State) (e : StatusCode) : (s.complete e).script = s.script := rfl
@[simp] theorem complete_busData (s : State) (e : StatusCode) : (s.complete e).busData = s.busData := rfl

@[simp] theorem acceptCmd_ctx (w : Word) (s : State) : (acceptCmd w s).ctx = s.ctx := rfl
@[simp] theorem acceptCmd_coef (w : Word) (s : State) : (acceptCmd w s).coef = s.coef := rfl
@[simp] theorem acceptCmd_buf (w : Word) (s : State) : (acceptCmd w s).buf = s.buf := rfl
@[simp] theorem acceptCmd_status (w : Word) (s : State) : (acceptCmd w s).status = statusAccept s.status := rfl
@[simp] theorem acceptCmd_result (w : Word) (s : State) : (acceptCmd w s).result = s.result := rfl
@[simp] theorem acceptCmd_pending (w : Word) (s : State) : (acceptCmd w s).pending = some w := rfl
@[simp] theorem acceptCmd_program (w : Word) (s : State) : (acceptCmd w s).program = s.program ++ [w] := rfl
@[simp] theorem acceptCmd_pc (w : Word) (s : State) : (acceptCmd w s).pc = s.pc := rfl
@[simp] theorem acceptCmd_script (w : Word) (s : State) : (acceptCmd w s).script = s.script := rfl
@[simp] theorem acceptCmd_busData (w : Word) (s : State) : (acceptCmd w s).busData = s.busData := rfl

@[simp] theorem latchNext_ctx (w : Word) (s : State) : (latchNext w s).ctx = s.ctx := rfl
@[simp] theorem latchNext_coef (w : Word) (s : State) : (latchNext w s).coef = s.coef := rfl
@[simp] theorem latchNext_buf (w : Word) (s : State) : (latchNext w s).buf = s.buf := rfl
@[simp] theorem latchNext_pending (w : Word) (s : State) : (latchNext w s).pending = some w := rfl
@[simp] theorem latchNext_script (w : Word) (s : State) : (latchNext w s).script = .engine :: s.script := rfl

/-- `done` answers a next state, and says which. -/
theorem done_next (r : Nat) (s : State) : done r s = .next { s.complete .ok with result := resultWord r } := rfl

/-- `raiseErr` answers a next state, and says which. -/
theorem raiseErr_next (e : StatusCode) (s : State) : raiseErr e s = .next (s.complete e) := rfl

end Sys2Proof.Machine
end

