-- ==== Sys2Proof/Laws/Status.lean ====
section
/-! SUPPORT. What each change of STATUS does to each field of it, and what `done` and `raiseErr` do to a state. -/

namespace Sys2Proof.Machine

theorem statusComplete_bit (e : StatusCode) (st : Word) (k : Nat) (hk : k < 32) :
    (statusComplete e st).getLsbD k =
      if k = 0 then false
      else if 4 ≤ k ∧ k < 8 then e.bits.getLsbD (k - 4)
      else if k = 8 then st.getLsbD 8 || decide (e ≠ .ok)
      else st.getLsbD k := by
  have h1 : ∀ k < 32, (~~~0x000000F1#32).getLsbD k = !(decide (k = 0) || decide (4 ≤ k ∧ k < 8)) := by decide
  have h2 : ∀ k < 32, (0x00000100#32).getLsbD k = decide (k = 8) := by decide
  have h3 : (if e = .ok then 0x00000000#32 else 0x00000100#32).getLsbD k = (decide (k = 8) && decide (e ≠ .ok)) := by
    split <;> simp_all
  have h4 : (e.bits.setWidth 32 <<< 4).getLsbD k = (decide (4 ≤ k) && e.bits.getLsbD (k - 4)) := by
    rw [BitVec.getLsbD_shiftLeft, BitVec.getLsbD_setWidth]
    by_cases h : k < 4
    · simp [hk, h, show ¬ 4 ≤ k by omega]
    · simp [hk, h, show k - 4 < 32 by omega, show 4 ≤ k by omega]
  have h5 : 8 ≤ k → e.bits.getLsbD (k - 4) = false := fun h => BitVec.getLsbD_of_ge _ _ (by omega)
  rw [statusComplete, BitVec.getLsbD_or, BitVec.getLsbD_or, BitVec.getLsbD_and, h1 k hk, h3, h4]
  by_cases a : k = 0
  · simp [a]
  by_cases b : 4 ≤ k ∧ k < 8
  · simp [a, b, show k ≠ 8 by omega]
  by_cases c : k = 8
  · subst c; simp
  · by_cases d : 4 ≤ k
    · simp [a, c, d, show ¬ k < 8 by omega, h5 (by omega)]
    · simp [a, c, d]

@[simp] theorem statusBusy_complete (e : StatusCode) (st : Word) : statusBusy (statusComplete e st) = false := by
  simp only [statusBusy]
  rw [statusComplete_bit _ _ _ (by omega)]
  simp

@[simp] theorem statusErr_complete (e : StatusCode) (st : Word) : statusErr (statusComplete e st) = e.bits := by
  apply BitVec.eq_of_getLsbD_eq
  intro k hk
  simp only [statusErr, BitVec.getLsbD_extractLsb', hk, decide_true, Bool.true_and]
  rw [statusComplete_bit _ _ _ (by omega)]
  simp [show 4 + k < 8 by omega]

@[simp] theorem statusAnyErr_complete (e : StatusCode) (st : Word) :
    statusAnyErr (statusComplete e st) = (statusAnyErr st || decide (e ≠ .ok)) := by
  simp only [statusAnyErr]
  rw [statusComplete_bit _ _ _ (by omega)]
  simp

@[simp] theorem statusDrop_complete (e : StatusCode) (st : Word) : statusDrop (statusComplete e st) = statusDrop st := by
  simp only [statusDrop]
  rw [statusComplete_bit _ _ _ (by omega)]
  simp

theorem statusComplete_reservedLow (e : StatusCode) (st : Word) :
    (statusComplete e st).extractLsb' 1 3 = st.extractLsb' 1 3 := by
  apply BitVec.eq_of_getLsbD_eq
  intro k hk
  simp only [BitVec.getLsbD_extractLsb', hk, decide_true, Bool.true_and]
  rw [statusComplete_bit _ _ _ (by omega)]
  simp [show ¬ 4 ≤ 1 + k by omega, show 1 + k ≠ 8 by omega]

theorem statusComplete_reservedHigh (e : StatusCode) (st : Word) :
    (statusComplete e st).extractLsb' 10 22 = st.extractLsb' 10 22 := by
  apply BitVec.eq_of_getLsbD_eq
  intro k hk
  simp only [BitVec.getLsbD_extractLsb', hk, decide_true, Bool.true_and]
  rw [statusComplete_bit _ _ _ (by omega)]
  simp [show ¬ (10 + k < 8) by omega, show 10 + k ≠ 8 by omega]

theorem resultWord_toNat (r : Nat) (h : r < 4096) : (resultWord r).toNat = r := by
  simp only [resultWord, BitVec.toNat_setWidth, BitVec.toNat_ofNat]
  omega

/-- Completing a command, whatever else it wrote. -/
theorem completed_of (s t u : State) (e : StatusCode) (hp : u.program = s.program) (hc : u.pc = s.pc)
    (hst : u.status = s.status) (hsc : u.script = s.script) (hb : u.busData = s.busData)
    (h1 : t.status = statusComplete e u.status) (h2 : t.pending = none) (h3 : t.pc = u.pc + 1)
    (h4 : t.program = u.program) (h5 : t.script = u.script) (h6 : t.busData = u.busData) : Completed s t where
  busy := by rw [h1]; simp
  pending := h2
  pc := by rw [h3, hc]
  drop := by rw [h1, hst]; simp
  reservedLow := by rw [h1, hst]; exact statusComplete_reservedLow _ _
  reservedHigh := by rw [h1, hst]; exact statusComplete_reservedHigh _ _
  program := by rw [h4, hp]
  script := by rw [h5, hsc]
  busData := by rw [h6, hb]

/-- `done(r)` on the state with the command's writes made succeeds with the count r (R221). -/
theorem done_succeeded (r : Nat) (s u : State) (hr : r < 4096) (hp : u.program = s.program) (hc : u.pc = s.pc)
    (hst : u.status = s.status) (hsc : u.script = s.script) (hb : u.busData = s.busData) :
    Succeeded r s { u.complete .ok with result := resultWord r } where
  toCompleted := completed_of s _ u .ok hp hc hst hsc hb rfl rfl rfl rfl rfl rfl
  err := by simp
  anyErr := by simp [hst]
  result := resultWord_toNat r hr

/-- `raise Err(code)` with a code that is not OK fails with it (R222). -/
theorem raiseErr_failsWith (e : StatusCode) (s : State) (h : e ≠ .ok) : FailsWith e (raiseErr e s) s :=
  ⟨s.complete e, rfl,
    { toCompleted := completed_of s _ s e rfl rfl rfl rfl rfl rfl rfl rfl rfl rfl rfl
      err := by simp
      anyErr := by simp [h]
      result := rfl
      ctx := rfl
      buf := rfl
      coef := rfl }⟩

theorem statusWrite_bit (v st : Word) (k : Nat) (hk : k < 32) :
    (statusWrite v st).getLsbD k = (st.getLsbD k && !(v.getLsbD k && decide (k = 8 ∨ k = 9))) := by
  interval_cases k <;> simp [statusWrite]

theorem statusAccept_bit (st : Word) (k : Nat) (hk : k < 32) :
    (statusAccept st).getLsbD k = (st.getLsbD k || decide (k = 0)) := by
  interval_cases k <;> simp [statusAccept]

theorem statusDropped_bit (st : Word) (k : Nat) (hk : k < 32) :
    (statusDropped st).getLsbD k = (st.getLsbD k || decide (k = 9)) := by
  interval_cases k <;> simp [statusDropped]

/-- The fields of four pairs of bits behind 24 zeros. -/
theorem extract_pairs (a b c d : BitVec 2) (x : BitVec (24 + 2 + 2 + 2 + 2)) (h : x = 0#24 ++ d ++ c ++ b ++ a) :
    x.extractLsb' 0 2 = a ∧ x.extractLsb' 2 2 = b ∧ x.extractLsb' 4 2 = c ∧ x.extractLsb' 6 2 = d := by
  subst h
  refine ⟨?_, ?_, ?_, ?_⟩ <;>
    (apply BitVec.eq_of_getLsbD_eq
     intro k hk
     interval_cases k <;>
       (rw [BitVec.getLsbD_extractLsb', BitVec.getLsbD_append, BitVec.getLsbD_append, BitVec.getLsbD_append,
          BitVec.getLsbD_append]
        simp))

/-- XSTAT shows the mode of each context (10_state.md R44). -/
theorem xstatField_eq (c : CtxId) (t : State) : xstatField c t = t.ctx[c].mode.bits := by
  have h := extract_pairs t.ctx[0].mode.bits t.ctx[1].mode.bits t.ctx[2].mode.bits t.ctx[3].mode.bits (xstat t) rfl
  fin_cases c
  · exact h.1
  · exact h.2.1
  · exact h.2.2.1
  · exact h.2.2.2

/-- The reserved bits of STATUS are zero exactly when every one of them is. -/
theorem reserved_iff (st : Word) :
    st &&& ~~~statusMask = 0#32 ↔ ∀ k, k < 32 → statusMask.getLsbD k = false → st.getLsbD k = false := by
  constructor
  · intro h k hk hm
    have h' := congrArg (fun x => BitVec.getLsbD x k) h
    simp only [BitVec.getLsbD_and, BitVec.getLsbD_not, hm, hk, decide_true, Bool.not_false, Bool.and_true,
      BitVec.getLsbD_zero] at h'
    exact h'
  · intro h
    apply BitVec.eq_of_getLsbD_eq
    intro k hk
    cases hm : statusMask.getLsbD k
    · simp [h k hk hm]
    · simp [hm]

end Sys2Proof.Machine
end

