-- ==== Sys2Proof/Laws/Memory.lean ====
section
/-! SUPPORT. The laws of memory: reads after writes, and that every operation keeps the canonical form. -/

namespace Sys2Proof.Machine

/-- The canonical form says that addresses rise. -/
theorem wf_iff_pairwise (m : Memory) : m.wf = true ↔ m.Pairwise (fun x y => x.1 < y.1) := by
  induction m with
  | nil => simp [Memory.wf]
  | cons x m ih =>
    cases m with
    | nil => simp [Memory.wf]
    | cons y m =>
      rw [Memory.wf, Bool.and_eq_true, ih, List.pairwise_cons (a := x)]
      simp only [decide_eq_true_eq, List.mem_cons, forall_eq_or_imp]
      constructor
      · rintro ⟨hxy, hp⟩
        exact ⟨⟨hxy, fun z hz => hxy.trans ((List.pairwise_cons.1 hp).1 z hz)⟩, hp⟩
      · rintro ⟨⟨hxy, -⟩, hp⟩
        exact ⟨hxy, hp⟩

@[simp] theorem wf_nil : Memory.wf [] = true := rfl

@[simp] theorem within_nil (size : Nat) : Memory.within size [] = true := rfl

theorem within_iff (size : Nat) (m : Memory) : m.within size = true ↔ ∀ x ∈ m, x.1 < size := by
  simp [Memory.within]

/-- In canonical form, a byte reads as `b` exactly when the cell is listed. -/
theorem read?_eq_some_iff (m : Memory) (h : m.wf = true) (a : Nat) (b : Byte) : m.read? a = some b ↔ (a, b) ∈ m := by
  rw [wf_iff_pairwise] at h
  induction m with
  | nil => simp [Memory.read?]
  | cons x m ih =>
    obtain ⟨k, y⟩ := x
    obtain ⟨hk, hm⟩ := List.pairwise_cons.1 h
    rw [Memory.read?, List.mem_cons, Prod.mk.injEq]
    split
    · rename_i hlt
      rw [ih hm]
      constructor
      · exact Or.inr
      · rintro (⟨rfl, -⟩ | h') <;> [omega; exact h']
    · split
      · rename_i heq
        subst heq
        constructor
        · intro h'
          exact Or.inl ⟨rfl, (Option.some.inj h').symm⟩
        · rintro (⟨-, rfl⟩ | h')
          · rfl
          · exact absurd (hk _ h') (by simp)
      · rename_i hlt hne
        constructor
        · intro h'; cases h'
        · rintro (⟨rfl, -⟩ | h')
          · exact absurd rfl hne
          · have := hk _ h'
            simp only at this
            omega

/-- `MemRead` reads a byte, then the rest (R75). -/
theorem readBytes_succ (m : Memory) (a n : Nat) :
    m.readBytes a (n + 1) = (m.read? a).bind fun b => (m.readBytes (a + 1) n).map (b :: ·) := by
  induction m generalizing a n with
  | nil => simp [Memory.readBytes, Memory.read?]
  | cons x m ih =>
    obtain ⟨k, y⟩ := x
    rw [Memory.readBytes, Memory.read?]
    by_cases h1 : k < a
    · rw [if_pos h1, if_pos h1, ih]
      congr 1
      funext b
      congr 1
      cases n with
      | zero => simp [Memory.readBytes]
      | succ n => rw [Memory.readBytes, if_pos (by omega)]
    · rw [if_neg h1, if_neg h1]
      by_cases h2 : k = a
      · rw [if_pos h2, if_pos h2, Option.bind_some]
        congr 1
        cases n with
        | zero => simp [Memory.readBytes]
        | succ n => rw [Memory.readBytes, if_pos (by omega)]
      · rw [if_neg h2, if_neg h2, Option.bind_none]

@[simp] theorem readBytes_zero (m : Memory) (a : Nat) : m.readBytes a 0 = some [] := by
  cases m <;> rfl

/-- `MemRead(a, n)` is BUF[a], BUF[a+1], … in that order (R75). -/
theorem readBytes_eq_some_iff (m : Memory) (a n : Nat) (bs : List Byte) :
    m.readBytes a n = some bs ↔ bs.length = n ∧ ∀ k, k < n → m.read? (a + k) = bs[k]? := by
  induction n generalizing a bs with
  | zero =>
    rw [readBytes_zero, Option.some.injEq]
    constructor
    · rintro rfl; exact ⟨rfl, fun k hk => absurd hk (by omega)⟩
    · rintro ⟨h, -⟩; exact (List.length_eq_zero_iff.1 h).symm
  | succ n ih =>
    rw [readBytes_succ]
    constructor
    · intro h
      obtain ⟨b, hb, h'⟩ := Option.bind_eq_some_iff.1 h
      obtain ⟨cs, hcs, rfl⟩ := Option.map_eq_some_iff.1 h'
      obtain ⟨hl, hr⟩ := (ih _ _).1 hcs
      refine ⟨by simp [hl], fun k hk => ?_⟩
      cases k with
      | zero => simpa using hb
      | succ k =>
        have := hr k (by omega)
        rw [show a + (k + 1) = a + 1 + k by omega, this]
        simp
    · rintro ⟨hl, hr⟩
      cases bs with
      | nil => simp at hl
      | cons b cs =>
        have h0 := hr 0 (by omega)
        simp only [Nat.add_zero, List.getElem?_cons_zero] at h0
        rw [h0, Option.bind_some, (ih (a + 1) cs).2 ⟨by simpa using hl, fun k hk => ?_⟩]
        · rfl
        · have := hr (k + 1) (by omega)
          rw [show a + 1 + k = a + (k + 1) by omega, this]
          simp

/-- A region is readable exactly when each of its bytes has been written (R48). -/
theorem readBytes_eq_none_iff (m : Memory) (a n : Nat) :
    m.readBytes a n = none ↔ ∃ k < n, m.read? (a + k) = none := by
  induction n generalizing a with
  | zero => simp
  | succ n ih =>
    rw [readBytes_succ]
    cases h : m.read? a with
    | none => simpa using ⟨0, by omega, by simpa using h⟩
    | some b =>
      rw [Option.bind_some, Option.map_eq_none_iff, ih]
      constructor
      · rintro ⟨k, hk, hn⟩
        exact ⟨k + 1, by omega, by rwa [show a + (k + 1) = a + 1 + k by omega]⟩
      · rintro ⟨k, hk, hn⟩
        cases k with
        | zero => simp [h] at hn
        | succ k => exact ⟨k, by omega, by rwa [show a + 1 + k = a + (k + 1) by omega]⟩

theorem mem_cellsFrom (a : Nat) (bs : List Byte) (k : Nat) (b : Byte) :
    (k, b) ∈ cellsFrom a bs ↔ a ≤ k ∧ bs[k - a]? = some b := by
  induction bs generalizing a with
  | nil => simp [cellsFrom]
  | cons c bs ih =>
    rw [cellsFrom, List.mem_cons, ih, Prod.mk.injEq]
    constructor
    · rintro (⟨rfl, rfl⟩ | ⟨h1, h2⟩)
      · exact ⟨le_refl _, by simp⟩
      · refine ⟨by omega, ?_⟩
        rw [show k - a = (k - (a + 1)) + 1 by omega]
        simpa using h2
    · rintro ⟨h1, h2⟩
      rcases Nat.eq_or_lt_of_le h1 with rfl | h1
      · left; simpa using h2.symm
      · right
        refine ⟨h1, ?_⟩
        rw [show k - a = (k - (a + 1)) + 1 by omega] at h2
        simpa using h2

theorem pairwise_cellsFrom (a : Nat) (bs : List Byte) : (cellsFrom a bs).Pairwise (fun x y => x.1 < y.1) := by
  induction bs generalizing a with
  | nil => simp [cellsFrom]
  | cons c bs ih =>
    rw [cellsFrom, List.pairwise_cons]
    refine ⟨?_, ih _⟩
    rintro ⟨k, b⟩ h
    have := (mem_cellsFrom _ _ _ _).1 h
    simp only
    omega

/-- The cells after a write: those outside the region stay, those inside are the bytes written. -/
theorem mem_writeBytes (m : Memory) (a : Nat) (bs : List Byte) (k : Nat) (b : Byte) :
    (k, b) ∈ m.writeBytes a bs ↔
      (k < a ∧ (k, b) ∈ m) ∨ (a ≤ k ∧ bs[k - a]? = some b) ∨ (a + bs.length ≤ k ∧ (k, b) ∈ m) := by
  simp only [Memory.writeBytes, List.mem_append, List.mem_filter, mem_cellsFrom, decide_eq_true_eq]
  tauto

theorem mem_cellsFrom_bound (a : Nat) (bs : List Byte) (x : Host.Cell) (h : x ∈ cellsFrom a bs) :
    a ≤ x.1 ∧ x.1 < a + bs.length := by
  obtain ⟨h1, h2⟩ := (mem_cellsFrom a bs x.1 x.2).1 h
  have := (List.getElem?_eq_some_iff.1 h2).1
  omega

/-- A write keeps the canonical form. -/
theorem wf_writeBytes (m : Memory) (a : Nat) (bs : List Byte) (h : m.wf = true) : (m.writeBytes a bs).wf = true := by
  rw [wf_iff_pairwise] at *
  rw [Memory.writeBytes, List.pairwise_append, List.pairwise_append]
  refine ⟨⟨h.filter _, pairwise_cellsFrom _ _, ?_⟩, h.filter _, ?_⟩
  · intro x hx y hy
    have h1 := (List.mem_filter.1 hx).2
    have h2 := mem_cellsFrom_bound _ _ _ hy
    simp only [decide_eq_true_eq] at h1
    omega
  · intro x hx y hy
    have h2 := (List.mem_filter.1 hy).2
    simp only [decide_eq_true_eq] at h2
    rcases List.mem_append.1 hx with hx | hx
    · have h1 := (List.mem_filter.1 hx).2
      simp only [decide_eq_true_eq] at h1
      omega
    · have h1 := mem_cellsFrom_bound _ _ _ hx
      omega

/-- A write inside the memory's size stays inside it. -/
theorem within_writeBytes (size : Nat) (m : Memory) (a : Nat) (bs : List Byte) (h : m.within size = true)
    (hs : a + bs.length ≤ size) : (m.writeBytes a bs).within size = true := by
  rw [within_iff] at *
  rintro ⟨k, b⟩ hx
  rcases (mem_writeBytes _ _ _ _ _).1 hx with ⟨-, hm⟩ | ⟨h1, h2⟩ | ⟨-, hm⟩
  · exact h _ hm
  · have := (List.getElem?_eq_some_iff.1 h2).1
    simp only
    omega
  · exact h _ hm

/-- A byte outside the region reads as before. -/
theorem read?_writeBytes_of_outside (m : Memory) (a : Nat) (bs : List Byte) (h : m.wf = true) (k : Nat)
    (hk : k < a ∨ a + bs.length ≤ k) : (m.writeBytes a bs).read? k = m.read? k := by
  apply Option.ext
  intro b
  rw [read?_eq_some_iff _ (wf_writeBytes m a bs h), read?_eq_some_iff _ h, mem_writeBytes]
  constructor
  · rintro (⟨-, hm⟩ | ⟨h1, h2⟩ | ⟨-, hm⟩)
    · exact hm
    · have := (List.getElem?_eq_some_iff.1 h2).1
      omega
    · exact hm
  · intro hm
    rcases hk with hk | hk
    · exact Or.inl ⟨hk, hm⟩
    · exact Or.inr (Or.inr ⟨hk, hm⟩)

/-- A byte of the region reads as written. -/
theorem read?_writeBytes_of_inside (m : Memory) (a : Nat) (bs : List Byte) (h : m.wf = true) (k : Nat)
    (hk : k < bs.length) : (m.writeBytes a bs).read? (a + k) = bs[k]? := by
  apply Option.ext
  intro b
  rw [read?_eq_some_iff _ (wf_writeBytes m a bs h), mem_writeBytes]
  constructor
  · rintro (⟨h1, -⟩ | ⟨-, h2⟩ | ⟨h1, -⟩)
    · omega
    · rwa [show a + k - a = k by omega] at h2
    · omega
  · intro h2
    exact Or.inr (Or.inl ⟨by omega, by rwa [show a + k - a = k by omega]⟩)

/-- The region reads as written. -/
theorem readBytes_writeBytes (m : Memory) (a : Nat) (bs : List Byte) (h : m.wf = true) :
    (m.writeBytes a bs).readBytes a bs.length = some bs :=
  (readBytes_eq_some_iff _ _ _ _).2 ⟨rfl, fun _ hk => read?_writeBytes_of_inside m a bs h _ hk⟩

/-- Equal reads make equal memories, in canonical form. -/
theorem memory_ext (m m' : Memory) (h : m.wf = true) (h' : m'.wf = true) (heq : ∀ a, m.read? a = m'.read? a) :
    m = m' := by
  have key : ∀ x : Host.Cell, x ∈ m ↔ x ∈ m' := by
    rintro ⟨k, b⟩
    rw [← read?_eq_some_iff m h, ← read?_eq_some_iff m' h', heq]
  rw [wf_iff_pairwise] at h h'
  refine List.Perm.eq_of_pairwise (le := fun x y => x.1 < y.1) ?_ h h' ?_
  · intro x y _ _ h1 h2
    omega
  · have hn : ∀ l : Memory, l.Pairwise (fun x y => x.1 < y.1) → l.Nodup := fun l hl =>
      hl.imp (fun {x y} hxy hne => by rw [hne] at hxy; omega)
    exact (List.perm_ext_iff_of_nodup (hn m h) (hn m' h')).2 key

/-- Writing the same region again leaves only the later bytes. -/
theorem writeBytes_writeBytes (m : Memory) (a : Nat) (bs cs : List Byte) (h : m.wf = true) (hl : bs.length = cs.length) :
    (m.writeBytes a bs).writeBytes a cs = m.writeBytes a cs := by
  have h1 := wf_writeBytes m a bs h
  apply memory_ext _ _ (wf_writeBytes _ _ _ h1) (wf_writeBytes _ _ _ h)
  intro k
  by_cases hk : k < a ∨ a + cs.length ≤ k
  · rw [read?_writeBytes_of_outside _ _ _ h1 _ hk, read?_writeBytes_of_outside _ _ _ h _ (hl ▸ hk),
      read?_writeBytes_of_outside _ _ _ h _ hk]
  · obtain ⟨j, rfl⟩ : ∃ j, k = a + j := ⟨k - a, by omega⟩
    rw [read?_writeBytes_of_inside _ _ _ h1 _ (by omega), read?_writeBytes_of_inside _ _ _ h _ (by omega)]

/-- Writing two regions one after the other is writing them together (R75). -/
theorem writeBytes_append (m : Memory) (a : Nat) (bs cs : List Byte) (h : m.wf = true) :
    (m.writeBytes a bs).writeBytes (a + bs.length) cs = m.writeBytes a (bs ++ cs) := by
  have h1 := wf_writeBytes m a bs h
  apply memory_ext _ _ (wf_writeBytes _ _ _ h1) (wf_writeBytes _ _ _ h)
  intro k
  by_cases h2 : k < a + bs.length ∨ a + bs.length + cs.length ≤ k
  · rw [read?_writeBytes_of_outside _ _ _ h1 _ h2]
    by_cases h3 : k < a ∨ a + bs.length ≤ k
    · rw [read?_writeBytes_of_outside _ _ _ h _ h3,
        read?_writeBytes_of_outside _ _ _ h _ (by rw [List.length_append]; omega)]
    · obtain ⟨j, rfl⟩ : ∃ j, k = a + j := ⟨k - a, by omega⟩
      rw [read?_writeBytes_of_inside _ _ _ h _ (by omega),
        read?_writeBytes_of_inside _ _ _ h _ (by rw [List.length_append]; omega), List.getElem?_append_left (by omega)]
  · obtain ⟨j, rfl⟩ : ∃ j, k = a + bs.length + j := ⟨k - (a + bs.length), by omega⟩
    rw [read?_writeBytes_of_inside _ _ _ h1 _ (by omega), show a + bs.length + j = a + (bs.length + j) by omega,
      read?_writeBytes_of_inside _ _ _ h _ (by rw [List.length_append]; omega), List.getElem?_append_right (by omega)]
    congr 1
    omega

/-- Writing no bytes changes nothing. -/
@[simp] theorem writeBytes_nil (m : Memory) (a : Nat) (h : m.wf = true) : m.writeBytes a [] = m := by
  apply memory_ext _ _ (wf_writeBytes _ _ _ h) h
  intro k
  exact read?_writeBytes_of_outside _ _ _ h _ (by simp; omega)

/-- Reading a region is reading its first part and then the rest (R75). -/
theorem readBytes_add (m : Memory) (a i j : Nat) (bs cs : List Byte) (h1 : m.readBytes a i = some bs)
    (h2 : m.readBytes (a + i) j = some cs) : m.readBytes a (i + j) = some (bs ++ cs) := by
  rw [readBytes_eq_some_iff] at *
  obtain ⟨l1, r1⟩ := h1
  obtain ⟨l2, r2⟩ := h2
  refine ⟨by simp [l1, l2], fun k hk => ?_⟩
  by_cases hki : k < i
  · rw [r1 k hki, List.getElem?_append_left (by omega)]
  · have := r2 (k - i) (by omega)
    rw [show a + i + (k - i) = a + k by omega] at this
    rw [this, List.getElem?_append_right (by omega), l1]

end Sys2Proof.Machine
end

