-- ==== Sys2Proof/Laws/Bits.lean ====
section
/-! SUPPORT. The laws of bit strings and byte strings (00_scope.md R15): each is the other's inverse. -/

namespace Sys2Proof.Machine

@[simp] theorem bitsOf_length {w : Nat} (x : BitVec w) : (bitsOf x).length = w := by simp [bitsOf]

theorem bitsOf_getElem {w : Nat} (x : BitVec w) (i : Nat) (h : i < (bitsOf x).length) :
    (bitsOf x)[i] = x.getLsbD (w - 1 - i) := by simp [bitsOf]

theorem natOfBits_foldl (bs : Bits) (m : Nat) :
    bs.foldl (fun m b => 2 * m + b.toNat) m = 2 ^ bs.length * m + natOfBits bs := by
  induction bs generalizing m with
  | nil => simp [natOfBits]
  | cons b bs ih =>
    simp only [natOfBits, List.foldl_cons, List.length_cons] at *
    rw [ih, ih (2 * 0 + b.toNat)]
    ring

/-- The first bit is the most significant (R15). -/
theorem natOfBits_cons (b : Bool) (bs : Bits) : natOfBits (b :: bs) = 2 ^ bs.length * b.toNat + natOfBits bs := by
  rw [natOfBits, List.foldl_cons, natOfBits_foldl]
  simp

theorem natOfBits_lt (bs : Bits) : natOfBits bs < 2 ^ bs.length := by
  induction bs with
  | nil => simp [natOfBits]
  | cons b bs ih =>
    rw [natOfBits_cons, List.length_cons, Nat.pow_succ]
    cases b <;> simp <;> omega

theorem natOfBits_testBit (bs : Bits) (i : Nat) (h : i < bs.length) :
    (natOfBits bs).testBit i = bs[bs.length - 1 - i] := by
  induction bs generalizing i with
  | nil => simp at h
  | cons b bs ih =>
    rw [natOfBits_cons, Nat.testBit_two_pow_mul_add _ (natOfBits_lt bs)]
    split
    · rename_i hi
      rw [ih i hi]
      simp only [List.length_cons]
      rw [List.getElem_cons]
      rw [dif_neg (by omega)]
      congr 1
      omega
    · rename_i hi
      simp only [List.length_cons] at h ⊢
      have : i = bs.length := by omega
      subst this
      simp only [Nat.sub_self, Nat.add_sub_cancel, List.getElem_cons_zero]
      cases b <;> decide

/-- Bits of a number read back. -/
theorem bitsOf_ofNat_natOfBits (w : Nat) (bs : Bits) (h : bs.length = w) : bitsOf (BitVec.ofNat w (natOfBits bs)) = bs := by
  subst h
  apply List.ext_getElem (by simp)
  intro i h1 h2
  rw [bitsOf_getElem, BitVec.getLsbD_ofNat, natOfBits_testBit _ _ (by omega)]
  simp only [show bs.length - 1 - i < bs.length by omega, decide_true, Bool.true_and]
  congr 1
  omega

/-- The number of a value's bits is the value. -/
theorem natOfBits_bitsOf {w : Nat} (x : BitVec w) : natOfBits (bitsOf x) = x.toNat := by
  apply Nat.eq_of_testBit_eq
  intro i
  by_cases hi : i < w
  · rw [natOfBits_testBit _ _ (by simpa using hi), bitsOf_getElem, bitsOf_length, BitVec.testBit_toNat]
    congr 1
    omega
  · have h1 : natOfBits (bitsOf x) < 2 ^ i :=
      lt_of_lt_of_le (by simpa using natOfBits_lt (bitsOf x)) (Nat.pow_le_pow_right (by omega) (by omega))
    have h2 : x.toNat < 2 ^ i := lt_of_lt_of_le x.isLt (Nat.pow_le_pow_right (by omega) (by omega))
    rw [Nat.testBit_lt_two_pow h1, Nat.testBit_lt_two_pow h2]

@[simp] theorem bitsOfBytes_nil : bitsOfBytes [] = [] := rfl

theorem bitsOfBytes_cons (b : Byte) (s : List Byte) : bitsOfBytes (b :: s) = bitsOf b ++ bitsOfBytes s := by
  simp [bitsOfBytes]

@[simp] theorem bitsOfBytes_length (s : List Byte) : (bitsOfBytes s).length = 8 * s.length := by
  induction s with
  | nil => rfl
  | cons b s ih => rw [bitsOfBytes_cons, List.length_append, ih, bitsOf_length, List.length_cons]; omega

/-- A list of eight bits and more has its first eight bits by name. -/
theorem eight_bits (bs : Bits) (h : 8 ≤ bs.length) :
    ∃ b7 b6 b5 b4 b3 b2 b1 b0 rest, bs = b7 :: b6 :: b5 :: b4 :: b3 :: b2 :: b1 :: b0 :: rest := by
  match bs, h with
  | b7 :: b6 :: b5 :: b4 :: b3 :: b2 :: b1 :: b0 :: rest, _ => exact ⟨_, _, _, _, _, _, _, _, _, rfl⟩

theorem bytesOfBits_cons (b7 b6 b5 b4 b3 b2 b1 b0 : Bool) (bs : Bits) :
    bytesOfBits (b7 :: b6 :: b5 :: b4 :: b3 :: b2 :: b1 :: b0 :: bs) =
      BitVec.ofNat 8 (natOfBits [b7, b6, b5, b4, b3, b2, b1, b0]) :: bytesOfBits bs := rfl

@[simp] theorem bytesOfBits_nil : bytesOfBits [] = [] := rfl

/-- Cutting a bit string into bytes loses no bit when its length is a multiple of 8 (R15, R171). -/
theorem bitsOfBytes_bytesOfBits (n : Nat) (bs : Bits) (h : bs.length = 8 * n) : bitsOfBytes (bytesOfBits bs) = bs := by
  induction n generalizing bs with
  | zero => rw [List.length_eq_zero_iff.1 h]; rfl
  | succ n ih =>
    obtain ⟨b7, b6, b5, b4, b3, b2, b1, b0, rest, rfl⟩ := eight_bits bs (by omega)
    rw [bytesOfBits_cons, bitsOfBytes_cons, bitsOf_ofNat_natOfBits 8 _ rfl, ih rest (by simp at h; omega)]
    rfl

theorem bytesOfBits_length (n : Nat) (bs : Bits) (h : bs.length = 8 * n) : (bytesOfBits bs).length = n := by
  have := congrArg List.length (bitsOfBytes_bytesOfBits n bs h)
  rw [bitsOfBytes_length] at this
  omega

/-- The bytes of a byte's bits and more. -/
theorem bytesOfBits_bitsOf_append (b : Byte) (bs : Bits) : bytesOfBits (bitsOf b ++ bs) = b :: bytesOfBits bs := by
  obtain ⟨b7, b6, b5, b4, b3, b2, b1, b0, rest, h⟩ := eight_bits (bitsOf b) (by simp)
  have hr : rest = [] := by
    have := congrArg List.length h
    simp at this
    exact this
  subst hr
  rw [h]
  simp only [List.cons_append, List.nil_append]
  rw [bytesOfBits_cons, ← h, natOfBits_bitsOf, BitVec.ofNat_toNat, BitVec.setWidth_eq]

/-- The bytes of a byte string's bits are the byte string (R15). -/
@[simp] theorem bytesOfBits_bitsOfBytes (s : List Byte) : bytesOfBits (bitsOfBytes s) = s := by
  induction s with
  | nil => rfl
  | cons b s ih => rw [bitsOfBytes_cons, bytesOfBits_bitsOf_append, ih]

theorem padToByte_length (bs : Bits) : ∃ n, (padToByte bs).length = 8 * n := by
  refine ⟨(bs.length + 7) / 8, ?_⟩
  rw [padToByte, List.length_append, List.length_replicate]
  omega

/-- Coefficients and their bytes (R73). -/
theorem coefToBytes_join (x : Coef) : (x.extractLsb' 8 8 ++ x.extractLsb' 0 8 : BitVec 16) = x := by
  apply BitVec.eq_of_getLsbD_eq
  intro i hi
  rw [BitVec.getLsbD_append]
  split
  · rename_i h
    rw [BitVec.getLsbD_extractLsb']
    simp [h]
  · rename_i h
    rw [BitVec.getLsbD_extractLsb']
    simp [show i - 8 < 8 by omega, show 8 + (i - 8) = i by omega]

@[simp] theorem bytesToCoefs_coefsToBytes (v : List Coef) : bytesToCoefs (coefsToBytes v) = v := by
  induction v with
  | nil => rfl
  | cons x v ih =>
    have : coefsToBytes (x :: v) = x.extractLsb' 0 8 :: x.extractLsb' 8 8 :: coefsToBytes v := rfl
    rw [this, bytesToCoefs, ih, coefToBytes_join]

@[simp] theorem coefsToBytes_length (v : List Coef) : (coefsToBytes v).length = 2 * v.length := by
  induction v with
  | nil => rfl
  | cons x v ih =>
    have : coefsToBytes (x :: v) = x.extractLsb' 0 8 :: x.extractLsb' 8 8 :: coefsToBytes v := rfl
    rw [this, List.length_cons, List.length_cons, ih, List.length_cons]
    omega

theorem bytesToCoefs_length (k : Nat) (bs : List Byte) (h : bs.length = 2 * k) : (bytesToCoefs bs).length = k := by
  induction k generalizing bs with
  | zero => rw [List.length_eq_zero_iff.1 h]; rfl
  | succ k ih =>
    match bs, h with
    | lo :: hi :: bs, h => rw [bytesToCoefs, List.length_cons, ih bs (by simp at h; omega)]

theorem bytesToCoefs_getElem? (bs : List Byte) (i : Nat) (lo hi : Byte) (h0 : bs[2 * i]? = some lo)
    (h1 : bs[2 * i + 1]? = some hi) : (bytesToCoefs bs)[i]? = some (hi ++ lo) := by
  induction i generalizing bs with
  | zero =>
    match bs, h0, h1 with
    | x :: y :: bs, h0, h1 =>
      simp at h0 h1
      simp [bytesToCoefs, h0, h1]
  | succ i ih =>
    match bs, h0, h1 with
    | x :: y :: bs, h0, h1 =>
      rw [bytesToCoefs, List.getElem?_cons_succ]
      refine ih bs ?_ ?_
      · rwa [show 2 * (i + 1) = 2 * i + 1 + 1 by omega, List.getElem?_cons_succ, List.getElem?_cons_succ] at h0
      · rwa [show 2 * (i + 1) + 1 = 2 * i + 1 + 1 + 1 by omega, List.getElem?_cons_succ, List.getElem?_cons_succ] at h1

/-- The entries read one by one are the vector read whole (R37, R170). -/
theorem readCoef?_of_readCoefs (m : Memory) (v : List Coef) (h : m.readCoefs = some v) :
    v.length = Config.n ∧ ∀ i, i < Config.n → m.readCoef? i = v[i]? := by
  obtain ⟨bs, hbs, rfl⟩ := Option.map_eq_some_iff.1 h
  obtain ⟨hl, hr⟩ := (readBytes_eq_some_iff _ _ _ _).1 hbs
  simp only [Config.coefBytes, Config.n, Nat.zero_add] at *
  refine ⟨bytesToCoefs_length 1024 bs (by omega), fun i hi => ?_⟩
  obtain ⟨lo, hlo⟩ : ∃ lo, bs[2 * i]? = some lo := ⟨_, List.getElem?_eq_getElem (by omega)⟩
  obtain ⟨hi', hhi⟩ : ∃ b, bs[2 * i + 1]? = some b := ⟨_, List.getElem?_eq_getElem (by omega)⟩
  have hread : m.readBytes (coefAddr i) 2 = some [lo, hi'] := by
    rw [readBytes_eq_some_iff]
    refine ⟨rfl, fun k hk => ?_⟩
    interval_cases k
    · rw [coefAddr, Nat.add_zero, hr _ (by omega), hlo]; rfl
    · rw [coefAddr, hr _ (by omega), hhi]; rfl
  rw [Memory.readCoef?, hread, bytesToCoefs_getElem? bs i lo hi' hlo hhi]

/-- An entry that cannot be read keeps the vector from being read (R178). -/
theorem readCoefs_eq_none (m : Memory) (i : Nat) (hi : i < Config.n) (h : m.readCoef? i = none) :
    m.readCoefs = none := by
  cases hv : m.readCoefs with
  | none => rfl
  | some v =>
    obtain ⟨hl, hr⟩ := readCoef?_of_readCoefs m v hv
    rw [hr i hi, List.getElem?_eq_none_iff] at h
    omega

/-- COEF reads as it was written (R170). -/
theorem readCoefs_writeCoefs (m : Memory) (v : List Coef) (h : m.wf = true) (hl : v.length = Config.n) :
    (m.writeCoefs v).readCoefs = some v := by
  have h1 := readBytes_writeBytes m 0 (coefsToBytes v) h
  rw [coefsToBytes_length, hl] at h1
  rw [Memory.readCoefs, Memory.writeCoefs]
  rw [show Config.coefBytes = 2 * Config.n from rfl, h1, Option.map_some, bytesToCoefs_coefsToBytes]

/-- Writing COEF keeps the canonical form. -/
theorem wf_writeCoefs (m : Memory) (v : List Coef) (h : m.wf = true) : (m.writeCoefs v).wf = true :=
  wf_writeBytes _ _ _ h

/-- Writing COEF stays inside it. -/
theorem within_writeCoefs (m : Memory) (v : List Coef) (h : m.within Config.coefBytes = true)
    (hl : v.length = Config.n) : (m.writeCoefs v).within Config.coefBytes = true := by
  refine within_writeBytes _ _ _ _ h ?_
  rw [coefsToBytes_length, hl]
  decide

/-- The bytes of the low half of a join, and of the high half (R73). -/
theorem extract_join (hi lo : Byte) :
    (hi ++ lo : BitVec 16).extractLsb' 0 8 = lo ∧ (hi ++ lo : BitVec 16).extractLsb' 8 8 = hi := by
  constructor <;>
    (apply BitVec.eq_of_getLsbD_eq
     intro k hk
     rw [BitVec.getLsbD_extractLsb', BitVec.getLsbD_append]
     simp [hk])

/-- An entry of COEF and its two bytes (R73). -/
theorem readCoef?_eq_some_iff (m : Memory) (i : Nat) (x : Coef) :
    m.readCoef? i = some x ↔
      m.read? (2 * i) = some (x.extractLsb' 0 8) ∧ m.read? (2 * i + 1) = some (x.extractLsb' 8 8) := by
  have h : m.readBytes (2 * i) 2 = (m.read? (2 * i)).bind fun lo => (m.read? (2 * i + 1)).map fun hi => [lo, hi] := by
    rw [readBytes_succ, readBytes_succ]
    cases m.read? (2 * i) <;> cases m.read? (2 * i + 1) <;> simp
  rw [Memory.readCoef?, coefAddr, h]
  cases m.read? (2 * i) with
  | none => simp
  | some lo =>
    cases m.read? (2 * i + 1) with
    | none => simp
    | some hi =>
      simp only [Option.bind_some, Option.map_some, Option.some.injEq]
      constructor
      · rintro rfl
        exact ⟨(extract_join hi lo).1.symm, (extract_join hi lo).2.symm⟩
      · rintro ⟨rfl, rfl⟩
        exact coefToBytes_join x

end Sys2Proof.Machine
end

