-- ==== Sys2Proof/Laws/Codec.lean ====
section
/-! SUPPORT. The laws of the two coefficient formats: what the encoders produce, what the decoders accept, and that each
undoes the other (41_codec.md R171 to R182). -/

namespace Sys2Proof.Machine

theorem coefInRange_iff (x : Coef) : coefInRange x = true ↔ x.toInt.natAbs ≤ 2047 := decide_eq_true_iff

/-- A list of seven bits has its bits by name. -/
theorem seven_bits (bs : Bits) (h : bs.length = 7) : ∃ b6 b5 b4 b3 b2 b1 b0, bs = [b6, b5, b4, b3, b2, b1, b0] := by
  match bs, h with
  | [b6, b5, b4, b3, b2, b1, b0], _ => exact ⟨_, _, _, _, _, _, _, rfl⟩

/-- The unary part is read back (R174). -/
theorem compDecodeUnary_replicate (k m : Nat) (rest : Bits) (h : m + 128 * k ≤ 2047) :
    compDecodeUnary m (List.replicate k false ++ true :: rest) = some (m + 128 * k, rest) := by
  induction k generalizing m with
  | zero => simp [compDecodeUnary]
  | succ k ih =>
    rw [List.replicate_succ, List.cons_append, compDecodeUnary, if_neg (by simp; omega), ih (m + 128) (by omega)]
    congr 2
    omega

/-- What the unary loop accepts: some zero bits and a one bit, the magnitude never passing 2047 (R175). -/
theorem compDecodeUnary_some (m : Nat) (bs : Bits) (m' : Nat) (rest : Bits) (h : compDecodeUnary m bs = some (m', rest)) :
    ∃ k, m' = m + 128 * k ∧ bs = List.replicate k false ++ true :: rest ∧ (0 < k → m' ≤ 2047) := by
  induction bs generalizing m with
  | nil => simp [compDecodeUnary] at h
  | cons b bs ih =>
    cases b with
    | true =>
      simp only [compDecodeUnary, Option.some.injEq, Prod.mk.injEq] at h
      obtain ⟨rfl, rfl⟩ := h
      exact ⟨0, by simp, by simp, by simp⟩
    | false =>
      rw [compDecodeUnary] at h
      split at h
      · cases h
      · rename_i hm
        simp only [Config.coefMax, gt_iff_lt, not_lt] at hm
        obtain ⟨k, h1, h2, h3⟩ := ih _ h
        refine ⟨k + 1, by omega, by rw [h2]; rfl, fun _ => ?_⟩
        rcases Nat.eq_zero_or_pos k with rfl | hk
        · omega
        · exact h3 hk

/-- A coefficient's code, with the magnitude split (R171). -/
theorem compEncodeCoef_eq (x : Coef) :
    compEncodeCoef x = decide (x.toInt < 0) ::
      (bitsOf (BitVec.ofNat 7 x.toInt.natAbs) ++ (List.replicate (x.toInt.natAbs / 128) false ++ [true])) := by
  simp [compEncodeCoef, Nat.shiftRight_eq_div_pow]

/-- e(x) has 9 + (m >> 7) bits (R171). -/
theorem compEncodeCoef_length (x : Coef) : (compEncodeCoef x).length = 9 + x.toInt.natAbs / 128 := by
  rw [compEncodeCoef_eq]
  simp
  omega

/-- A coefficient in range is read back from its code (R182). -/
theorem compDecodeCoef_compEncodeCoef (x : Coef) (rest : Bits) (h : coefInRange x = true) :
    compDecodeCoef (compEncodeCoef x ++ rest) = some (x, rest) := by
  rw [coefInRange_iff] at h
  obtain ⟨b6, b5, b4, b3, b2, b1, b0, hb⟩ := seven_bits (bitsOf (BitVec.ofNat 7 x.toInt.natAbs)) (by simp)
  have hn : natOfBits [b6, b5, b4, b3, b2, b1, b0] = x.toInt.natAbs % 128 := by
    rw [← hb, natOfBits_bitsOf, BitVec.toNat_ofNat]
  rw [compEncodeCoef_eq, hb]
  simp only [List.cons_append, List.nil_append, List.append_assoc, compDecodeCoef]
  rw [hn, compDecodeUnary_replicate _ _ _ (by omega),
    show x.toInt.natAbs % 128 + 128 * (x.toInt.natAbs / 128) = x.toInt.natAbs by omega]
  simp only
  by_cases hx : x.toInt < 0
  · have hne : (x.toInt.natAbs == 0) = false := by simp; omega
    rw [decide_eq_true hx, hne]
    simp only [Bool.and_false, Bool.false_eq_true, if_false, if_true]
    rw [show (-(x.toInt.natAbs : Int)) = x.toInt by omega, BitVec.ofInt_toInt]
  · rw [decide_eq_false hx]
    simp only [Bool.false_and, Bool.false_eq_true, if_false]
    have : BitVec.ofNat 16 x.toInt.natAbs = x := by
      rw [← BitVec.ofInt_natCast, show ((x.toInt.natAbs : Nat) : Int) = x.toInt by omega, BitVec.ofInt_toInt]
    rw [this]

/-- A magnitude up to 2047 with a sign, as an int16. -/
theorem toInt_ofInt_neg (m : Nat) (h : m ≤ 2047) : (BitVec.ofInt 16 (-(m : Int))).toInt = -(m : Int) := by
  rw [BitVec.toInt_ofInt, Int.bmod_def]
  omega

theorem toInt_ofNat_small (m : Nat) (h : m ≤ 2047) : (BitVec.ofNat 16 m).toInt = (m : Int) := by
  rw [← BitVec.ofInt_natCast, BitVec.toInt_ofInt, Int.bmod_def]
  omega

/-- What the decoder of one coefficient accepts is a code of a coefficient in range, and nothing else (R173, R175). -/
theorem compDecodeCoef_some (bs : Bits) (x : Coef) (rest : Bits) (h : compDecodeCoef bs = some (x, rest)) :
    coefInRange x = true ∧ bs = compEncodeCoef x ++ rest := by
  unfold compDecodeCoef at h
  split at h
  · rename_i sgn b6 b5 b4 b3 b2 b1 b0 bs
    split at h
    · cases h
    · rename_i m rest' hu
      obtain ⟨k, h1, h2, h3⟩ := compDecodeUnary_some _ _ _ _ hu
      have hlt := natOfBits_lt [b6, b5, b4, b3, b2, b1, b0]
      simp only [List.length_cons, List.length_nil, Nat.zero_add] at hlt
      norm_num at hlt
      have hm : m ≤ 2047 := by
        rcases Nat.eq_zero_or_pos k with rfl | hk
        · omega
        · exact h3 hk
      have hbits : bitsOf (BitVec.ofNat 7 m) = [b6, b5, b4, b3, b2, b1, b0] := by
        have hmod : BitVec.ofNat 7 m = BitVec.ofNat 7 (natOfBits [b6, b5, b4, b3, b2, b1, b0]) := by
          apply BitVec.eq_of_toNat_eq
          rw [BitVec.toNat_ofNat, BitVec.toNat_ofNat]
          omega
        rw [hmod, bitsOf_ofNat_natOfBits 7 _ rfl]
      split at h
      · cases h
      · rename_i hz
        simp only [Option.some.injEq, Prod.mk.injEq] at h
        obtain ⟨hx, rfl⟩ := h
        have habs : x.toInt.natAbs = m ∧ decide (x.toInt < 0) = sgn := by
          cases sgn with
          | true =>
            have hm0 : m ≠ 0 := by simpa using hz
            rw [← hx]
            simp only [if_true]
            rw [toInt_ofInt_neg m hm]
            refine ⟨by omega, ?_⟩
            simp
            omega
          | false =>
            rw [← hx]
            simp only [Bool.false_eq_true, if_false]
            rw [toInt_ofNat_small m hm]
            refine ⟨by omega, ?_⟩
            simp
        refine ⟨?_, ?_⟩
        · rw [coefInRange_iff]
          omega
        · rw [compEncodeCoef_eq, habs.1, habs.2, hbits, h2, show m / 128 = k by omega]
          simp
  · cases h

/-- A vector in range is read back from its codes (R182). -/
theorem compDecodeCoefs_encode (v : List Coef) (rest : Bits) (h : ∀ x ∈ v, coefInRange x = true) :
    compDecodeCoefs v.length (v.flatMap compEncodeCoef ++ rest) = some (v, rest) := by
  induction v with
  | nil => rfl
  | cons x v ih =>
    rw [List.length_cons, compDecodeCoefs, List.flatMap_cons, List.append_assoc,
      compDecodeCoef_compEncodeCoef x _ (h x (by simp))]
    simp only
    rw [ih (fun y hy => h y (by simp [hy]))]

/-- What the loop over k coefficients accepts (R175). -/
theorem compDecodeCoefs_some (k : Nat) (bs : Bits) (v : List Coef) (rest : Bits)
    (h : compDecodeCoefs k bs = some (v, rest)) :
    v.length = k ∧ (∀ x ∈ v, coefInRange x = true) ∧ bs = v.flatMap compEncodeCoef ++ rest := by
  induction k generalizing bs v with
  | zero =>
    simp only [compDecodeCoefs, Option.some.injEq, Prod.mk.injEq] at h
    obtain ⟨rfl, rfl⟩ := h
    simp
  | succ k ih =>
    rw [compDecodeCoefs] at h
    split at h
    · cases h
    · rename_i x rest1 h1
      split at h
      · cases h
      · rename_i w rest2 h2
        simp only [Option.some.injEq, Prod.mk.injEq] at h
        obtain ⟨rfl, rfl⟩ := h
        obtain ⟨hx, rfl⟩ := compDecodeCoef_some _ _ _ h1
        obtain ⟨hl, hv, rfl⟩ := ih _ _ h2
        refine ⟨by simp [hl], ?_, by simp⟩
        intro y hy
        rcases List.mem_cons.1 hy with rfl | hy
        · exact hx
        · exact hv y hy

/-- The bits of a compressed stream: the codes and at most seven zero bits (R171). -/
theorem bitsOfBytes_compEncode (v : List Coef) :
    bitsOfBytes (compEncode v) = v.flatMap compEncodeCoef ++
      List.replicate ((8 - (v.flatMap compEncodeCoef).length % 8) % 8) false := by
  obtain ⟨n, hn⟩ := padToByte_length (v.flatMap compEncodeCoef)
  rw [compEncode, bitsOfBytes_bytesOfBits n _ hn, padToByte]

/-- The length of a compressed stream is its bits rounded up to bytes (R171). -/
theorem compEncode_length (v : List Coef) : (compEncode v).length = ((v.flatMap compEncodeCoef).length + 7) / 8 := by
  have h := congrArg List.length (bitsOfBytes_compEncode v)
  rw [bitsOfBytes_length, List.length_append, List.length_replicate] at h
  omega

/-- COMP.DEC's decoder reads back what COMP.ENC's encoder writes (R182). -/
theorem compDecode_compEncode (v : List Coef) (h : ∀ x ∈ v, coefInRange x = true) :
    compDecode v.length (compEncode v) = some v := by
  rw [compDecode, bitsOfBytes_compEncode, compDecodeCoefs_encode v _ h]
  simp only
  rw [compEncode_length, List.length_replicate]
  generalize (v.flatMap compEncodeCoef).length = e
  rw [if_neg]
  · rw [if_neg]
    omega
  · simp

/-- What COMP.DEC's decoder accepts is exactly what COMP.ENC's encoder writes for a vector in range (R173, R182). -/
theorem compDecode_some (k : Nat) (s : List Byte) (v : List Coef) (h : compDecode k s = some v) :
    v.length = k ∧ (∀ x ∈ v, coefInRange x = true) ∧ compEncode v = s := by
  rw [compDecode] at h
  split at h
  · cases h
  · rename_i w rest hd
    obtain ⟨hl, hv, hbits⟩ := compDecodeCoefs_some _ _ _ _ hd
    simp only at h
    split at h
    · cases h
    · rename_i hpad
      split at h
      · cases h
      · rename_i hused
        cases h
        refine ⟨hl, hv, ?_⟩
        have hlen := congrArg List.length hbits
        rw [bitsOfBytes_length, List.length_append] at hlen
        simp only [ne_eq, not_not] at hused
        have htake : rest.take (8 * ((8 * s.length - rest.length + 7) / 8) - (8 * s.length - rest.length)) = rest :=
          List.take_of_length_le (by omega)
        rw [htake] at hpad
        have hrest : rest = List.replicate ((8 - (v.flatMap compEncodeCoef).length % 8) % 8) false := by
          rw [List.eq_replicate_iff]
          refine ⟨by omega, fun b hb => ?_⟩
          have := hpad
          simp only [List.any_eq_true, id_eq, exists_eq_right] at this
          cases b with
          | false => rfl
          | true => exact absurd hb this
        rw [← bytesOfBits_bitsOfBytes s, ← bytesOfBits_bitsOfBytes (compEncode v), bitsOfBytes_compEncode, hbits, ← hrest]

/-- A stream's codes have 9 to 24 bits a coefficient (R171). -/
theorem flatMap_compEncodeCoef_length (v : List Coef) (h : ∀ x ∈ v, coefInRange x = true) :
    9 * v.length ≤ (v.flatMap compEncodeCoef).length ∧ (v.flatMap compEncodeCoef).length ≤ 24 * v.length := by
  induction v with
  | nil => simp
  | cons x v ih =>
    have h1 := (coefInRange_iff x).1 (h x (by simp))
    have h2 := ih (fun y hy => h y (by simp [hy]))
    rw [List.flatMap_cons, List.length_append, compEncodeCoef_length, List.length_cons]
    omega

/-- The stream of N coefficients in range has 1152 to 3072 bytes (R171). -/
theorem compEncode_length_bounds (v : List Coef) (hl : v.length = 1024) (h : ∀ x ∈ v, coefInRange x = true) :
    1152 ≤ (compEncode v).length ∧ (compEncode v).length ≤ 3072 := by
  have := flatMap_compEncodeCoef_length v h
  rw [compEncode_length]
  omega

/-! ### The constant-time format -/

theorem ctEncodeCoef_length (x : Coef) : (ctEncodeCoef x).length = 12 := bitsOf_length _

theorem flatMap_ctEncodeCoef_length (v : List Coef) : (v.flatMap ctEncodeCoef).length = 12 * v.length := by
  induction v with
  | nil => rfl
  | cons x v ih => rw [List.flatMap_cons, List.length_append, ih, ctEncodeCoef_length, List.length_cons]; omega

/-- The constant-time stream of N coefficients has 1536 bytes (R172). -/
theorem ctEncode_length (v : List Coef) (h : v.length = 1024) : (ctEncode v).length = 1536 :=
  bytesOfBits_length 1536 _ (by rw [flatMap_ctEncodeCoef_length, h])

theorem twelve_bits (bs : Bits) (h : bs.length = 12) :
    ∃ b11 b10 b9 b8 b7 b6 b5 b4 b3 b2 b1 b0, bs = [b11, b10, b9, b8, b7, b6, b5, b4, b3, b2, b1, b0] := by
  match bs, h with
  | [b11, b10, b9, b8, b7, b6, b5, b4, b3, b2, b1, b0], _ => exact ⟨_, _, _, _, _, _, _, _, _, _, _, _, rfl⟩

/-- The decoder reads one slot, then the rest (R181). -/
theorem ctDecodeBits_append (w : BitVec 12) (rest : Bits) :
    ctDecodeBits (bitsOf w ++ rest) =
      if w = 0x800#12 then none else (ctDecodeBits rest).map (w.signExtend 16 :: ·) := by
  obtain ⟨b11, b10, b9, b8, b7, b6, b5, b4, b3, b2, b1, b0, hb⟩ := twelve_bits (bitsOf w) (by simp)
  have hw : BitVec.ofNat 12 (natOfBits [b11, b10, b9, b8, b7, b6, b5, b4, b3, b2, b1, b0]) = w := by
    rw [← hb, natOfBits_bitsOf, BitVec.ofNat_toNat, BitVec.setWidth_eq]
  rw [hb]
  simp only [List.cons_append, List.nil_append, ctDecodeBits, hw]

/-- A coefficient in range keeps its value through 12 bits, and is never the pattern 0x800 (R172). -/
theorem signExtend_setWidth (x : Coef) (h : coefInRange x = true) :
    (x.setWidth 12).signExtend 16 = x ∧ x.setWidth 12 ≠ 0x800#12 := by
  rw [coefInRange_iff] at h
  have hx : x.toInt = x.toNat ∧ x.toNat < 32768 ∨ x.toInt = (x.toNat : Int) - 65536 ∧ 32768 ≤ x.toNat := by
    have := x.isLt
    rw [BitVec.toInt_eq_toNat_cond]
    split <;> omega
  have hlt := x.isLt
  have hw : (x.setWidth 12).toNat = x.toNat % 4096 := by simp
  constructor
  · apply BitVec.eq_of_toInt_eq
    rw [BitVec.toInt_signExtend_of_le (by omega), BitVec.toInt_eq_toNat_cond (x.setWidth 12), hw]
    norm_num
    split <;> omega
  · intro he
    have := congrArg BitVec.toNat he
    rw [hw] at this
    simp at this
    omega

/-- A pattern that is not 0x800 is a coefficient in range, and encodes to itself (R173, R181). -/
theorem signExtend_inRange (w : BitVec 12) (h : w ≠ 0x800#12) :
    coefInRange (w.signExtend 16) = true ∧ (w.signExtend 16).setWidth 12 = w := by
  have hne : w.toNat ≠ 2048 := fun e => h (BitVec.eq_of_toNat_eq (by simpa using e))
  have hlt := w.isLt
  have hi : w.toInt = if 2 * w.toNat < 4096 then (w.toNat : Int) else (w.toNat : Int) - 4096 := by
    rw [BitVec.toInt_eq_toNat_cond]
    norm_num
  have hs : (w.signExtend 16).toInt = w.toInt := BitVec.toInt_signExtend_of_le (by omega)
  constructor
  · rw [coefInRange_iff, hs, hi]
    split <;> omega
  · apply BitVec.eq_of_getLsbD_eq
    intro i hi'
    rw [BitVec.getLsbD_setWidth, BitVec.getLsbD_signExtend]
    simp [hi', show i < 16 by omega]

/-- CT.DEC's decoder reads back what CT.ENC's encoder writes (R182). -/
theorem ctDecodeBits_encode (v : List Coef) (h : ∀ x ∈ v, coefInRange x = true) :
    ctDecodeBits (v.flatMap ctEncodeCoef) = some v := by
  induction v with
  | nil => rfl
  | cons x v ih =>
    obtain ⟨h1, h2⟩ := signExtend_setWidth x (h x (by simp))
    rw [List.flatMap_cons, ctEncodeCoef, ctDecodeBits_append, if_neg h2, ih (fun y hy => h y (by simp [hy])), h1]
    rfl

theorem ctDecode_ctEncode (v : List Coef) (hl : v.length = 1024) (h : ∀ x ∈ v, coefInRange x = true) :
    ctDecode (ctEncode v) = some v := by
  rw [ctDecode, ctEncode, bitsOfBytes_bytesOfBits 1536 _ (by rw [flatMap_ctEncodeCoef_length, hl])]
  exact ctDecodeBits_encode v h

/-- What CT.DEC's decoder accepts, slot by slot (R173, R181). -/
theorem ctDecodeBits_some (n : Nat) (bs : Bits) (v : List Coef) (hn : bs.length = 12 * n)
    (h : ctDecodeBits bs = some v) :
    v.length = n ∧ (∀ x ∈ v, coefInRange x = true) ∧ v.flatMap ctEncodeCoef = bs := by
  induction n generalizing bs v with
  | zero =>
    have : bs = [] := List.length_eq_zero_iff.1 hn
    subst this
    simp only [ctDecodeBits, Option.some.injEq] at h
    subst h
    simp
  | succ n ih =>
    have hsplit : bs = bitsOf (BitVec.ofNat 12 (natOfBits (bs.take 12))) ++ bs.drop 12 := by
      rw [bitsOf_ofNat_natOfBits 12 _ (by rw [List.length_take]; omega), List.take_append_drop]
    rw [hsplit, ctDecodeBits_append] at h
    split at h
    · cases h
    · rename_i hne
      obtain ⟨w, hw, rfl⟩ := Option.map_eq_some_iff.1 h
      obtain ⟨h1, h2, h3⟩ := ih (bs.drop 12) w (by rw [List.length_drop]; omega) hw
      obtain ⟨hr, he⟩ := signExtend_inRange _ hne
      refine ⟨by simp [h1], ?_, ?_⟩
      · intro x hx
        rcases List.mem_cons.1 hx with rfl | hx
        · exact hr
        · exact h2 x hx
      · rw [List.flatMap_cons, ctEncodeCoef, he, h3, ← hsplit]

/-- What CT.DEC's decoder accepts of 1536 bytes is exactly what CT.ENC's encoder writes (R173, R182). -/
theorem ctDecode_some (s : List Byte) (v : List Coef) (hs : s.length = 1536) (h : ctDecode s = some v) :
    v.length = 1024 ∧ (∀ x ∈ v, coefInRange x = true) ∧ ctEncode v = s := by
  obtain ⟨h1, h2, h3⟩ := ctDecodeBits_some 1024 (bitsOfBytes s) v (by rw [bitsOfBytes_length, hs]) h
  exact ⟨h1, h2, by rw [ctEncode, h3, bytesOfBits_bitsOfBytes]⟩

end Sys2Proof.Machine
end

