-- ==== Sys2Proof/Laws/Decode.lean ====
section
/-! SUPPORT. The fields of a packed command word, and the word its fields make (30_encoding.md R100, R102). -/

namespace Sys2Proof

theorem packCW_toNat (op : Nat) (c : CtxId) (a l : Nat) (hop : op < 64) (ha : a < 4096) (hl : l < 4096) :
    (packCW op c a l).toNat = op * 2 ^ 26 + c.val * 2 ^ 24 + a * 2 ^ 12 + l := by
  have := c.isLt
  rw [packCW, BitVec.toNat_ofNat, Nat.mod_eq_of_lt]
  omega

theorem fieldOp_toNat (w : Word) : fieldOp w = w.toNat / 2 ^ 26 := by
  have := w.isLt
  simp only [fieldOp, BitVec.extractLsb'_toNat, Nat.shiftRight_eq_div_pow]
  omega

theorem fieldCtx_toNat (w : Word) : (fieldCtx w).val = w.toNat / 2 ^ 24 % 4 := by
  simp only [fieldCtx, BitVec.extractLsb'_toNat, Nat.shiftRight_eq_div_pow]

theorem fieldAddr_toNat (w : Word) : fieldAddr w = w.toNat / 2 ^ 12 % 4096 := by
  simp only [fieldAddr, BitVec.extractLsb'_toNat, Nat.shiftRight_eq_div_pow]

theorem fieldLen_toNat (w : Word) : fieldLen w = w.toNat % 4096 := by
  simp only [fieldLen, BitVec.extractLsb'_toNat, Nat.shiftRight_eq_div_pow]
  norm_num

/-- The fields of a word built from fields (R100). -/
theorem fields_packCW (op : Nat) (c : CtxId) (a l : Nat) (hop : op < 64) (ha : a < 4096) (hl : l < 4096) :
    fieldOp (packCW op c a l) = op ∧ fieldCtx (packCW op c a l) = c ∧ fieldAddr (packCW op c a l) = a ∧
      fieldLen (packCW op c a l) = l := by
  have hc := c.isLt
  have hw := packCW_toNat op c a l hop ha hl
  refine ⟨?_, ?_, ?_, ?_⟩
  · rw [fieldOp_toNat, hw]; omega
  · apply Fin.ext; rw [fieldCtx_toNat, hw]; omega
  · rw [fieldAddr_toNat, hw]; omega
  · rw [fieldLen_toNat, hw]; omega

/-- The bounds of a word's fields (R102). -/
theorem fields_lt (w : Word) : fieldOp w < 64 ∧ fieldAddr w < 4096 ∧ fieldLen w < 4096 := by
  have := w.isLt
  refine ⟨?_, ?_, ?_⟩
  · rw [fieldOp_toNat]; omega
  · rw [fieldAddr_toNat]; omega
  · rw [fieldLen_toNat]; omega

/-- A word is built from its fields (R100). -/
theorem packCW_fields (w : Word) : packCW (fieldOp w) (fieldCtx w) (fieldAddr w) (fieldLen w) = w := by
  obtain ⟨h1, h2, h3⟩ := fields_lt w
  apply BitVec.eq_of_toNat_eq
  rw [packCW_toNat _ _ _ _ h1 h2 h3, fieldOp_toNat, fieldCtx_toNat, fieldAddr_toNat, fieldLen_toNat]
  omega

theorem fits12_iff (x : Nat) : fits12 x = true ↔ x < 4096 := decide_eq_true_iff

/-- The decoder reads the fields a word was built from (R100, R101). -/
theorem decode_packCW (op : Nat) (c : CtxId) (a l : Nat) (hop : op < 64) (ha : a < 4096) (hl : l < 4096) :
    decode (packCW op c a l) = decodeFields op c a l := by
  obtain ⟨h1, h2, h3, h4⟩ := fields_packCW op c a l hop ha hl
  rw [decode, h1, h2, h3, h4]

theorem ifReservedZero_ok (z : Bool) (i j : Instr) : ifReservedZero z i = .ok j ↔ z = true ∧ i = j := by
  cases z <;> simp [ifReservedZero]

/-- What the decoder accepts has operands that fit, the OP it read, and the word it read (R100, R108). -/
theorem decodeFields_ok (op : Nat) (c : CtxId) (a l : Nat) (i : Instr) (ha : a < 4096) (hl : l < 4096) (h : decodeFields op c a l = .ok i) :
    i.wellFormed = true ∧ encode i = packCW op c a l ∧ i.opcode = op := by
  unfold decodeFields at h
  split at h
  all_goals first
    | (obtain ⟨hz, rfl⟩ := (ifReservedZero_ok _ _ _).1 h
       simp only [Bool.and_eq_true, beq_iff_eq] at hz
       simp [Instr.wellFormed, encode, Instr.opcode, fits12_iff, ha, hl, hz])
    | (cases h
       simp [Instr.wellFormed, encode, Instr.opcode, fits12_iff, ha, hl])
    | cases h

/-- A mask and a match compare the four fields one by one (R109). -/
theorem and_eq_iff_fields (w m p : Word) : w &&& m = p ↔
    w.extractLsb' 26 6 &&& m.extractLsb' 26 6 = p.extractLsb' 26 6 ∧
      w.extractLsb' 24 2 &&& m.extractLsb' 24 2 = p.extractLsb' 24 2 ∧
      w.extractLsb' 12 12 &&& m.extractLsb' 12 12 = p.extractLsb' 12 12 ∧
      w.extractLsb' 0 12 &&& m.extractLsb' 0 12 = p.extractLsb' 0 12 := by
  constructor
  · rintro rfl
    simp [BitVec.extractLsb'_and]
  · rintro ⟨h1, h2, h3, h4⟩
    apply BitVec.eq_of_getLsbD_eq
    intro k hk
    by_cases a1 : k < 12
    · simpa [a1] using congrArg (fun x => x.getLsbD k) h4
    by_cases a2 : k < 24
    · simpa [show k - 12 < 12 by omega, show 12 + (k - 12) = k by omega] using congrArg (fun x => x.getLsbD (k - 12)) h3
    by_cases a3 : k < 26
    · simpa [show k - 24 < 2 by omega, show 24 + (k - 24) = k by omega] using congrArg (fun x => x.getLsbD (k - 24)) h2
    · simpa [show k - 26 < 6 by omega, show 26 + (k - 26) = k by omega] using congrArg (fun x => x.getLsbD (k - 26)) h1

end Sys2Proof
end

