-- ==== Sys2Proof/Laws/Sponge.lean ====
section
/-! SUPPORT. The laws of the sponge: squeezing in parts, absorbing in parts, and the prefix property of SHAKE256
(00_scope.md R14; 40_xof.md R140, R147). -/

namespace Sys2Proof.Machine

@[simp] theorem squeeze_zero (p : Sponge) : Sponge.squeeze 0 p = ([], p) := rfl

theorem squeeze_succ (n : Nat) (p : Sponge) :
    Sponge.squeeze (n + 1) p =
      (p.squeezeByte.1 :: (Sponge.squeeze n p.squeezeByte.2).1, (Sponge.squeeze n p.squeezeByte.2).2) := rfl

@[simp] theorem squeeze_length (n : Nat) (p : Sponge) : (Sponge.squeeze n p).1.length = n := by
  induction n generalizing p with
  | zero => rfl
  | succ n ih => rw [squeeze_succ, List.length_cons, ih]

/-- Squeezing m + n bytes is squeezing m and then n (R147). -/
theorem squeeze_add (m n : Nat) (p : Sponge) :
    Sponge.squeeze (m + n) p =
      ((Sponge.squeeze m p).1 ++ (Sponge.squeeze n (Sponge.squeeze m p).2).1,
        (Sponge.squeeze n (Sponge.squeeze m p).2).2) := by
  induction m generalizing p with
  | zero => simp
  | succ m ih => rw [show m + 1 + n = (m + n) + 1 by omega, squeeze_succ, ih, squeeze_succ, List.cons_append]

/-- Absorbing x ‖ y is absorbing x and then y (R147). -/
theorem absorb_append (p : Sponge) (x y : List Byte) : p.absorb (x ++ y) = (p.absorb x).absorb y :=
  List.foldl_append

@[simp] theorem shake256_length (M : List Byte) (L : Nat) : (shake256 M L).length = L := squeeze_length _ _

/-- `SHAKE256(M, L)` is a prefix of `SHAKE256(M, L')` for L ≤ L' (R14). -/
theorem shake256_add (M : List Byte) (k l : Nat) : ∃ bs, shake256 M (k + l) = shake256 M k ++ bs :=
  ⟨_, congrArg Prod.fst (squeeze_add k l _)⟩

theorem shake256_take (M : List Byte) (k l : Nat) : (shake256 M (k + l)).take k = shake256 M k := by
  obtain ⟨bs, h⟩ := shake256_add M k l
  rw [h, List.take_left' (shake256_length M k)]

/-- A context's next bytes are what the sponge behind it squeezes (R140, R154). -/
theorem nextBytes_eq_squeeze (x : XofCtx) (h : x.mode = .squeeze) (l : Nat) :
    x.nextBytes l = (Sponge.squeeze l x.sponge).1 := by
  unfold XofCtx.nextBytes shake256 XofCtx.sponge
  rw [h, squeeze_add, List.drop_left' (squeeze_length _ _)]

/-- The sponge behind a context after it has put out `l` bytes (R154). -/
theorem advance_sponge (x : XofCtx) (h : x.mode = .squeeze) (l : Nat) :
    (x.advance l).sponge = (Sponge.squeeze l x.sponge).2 := by
  unfold XofCtx.advance XofCtx.sponge
  simp only [h]
  rw [squeeze_add]

@[simp] theorem nextBytes_length (x : XofCtx) (l : Nat) : (x.nextBytes l).length = l := by
  simp [XofCtx.nextBytes]

/-- The next l1 + l2 bytes are the next l1 and then the next l2 (R147). -/
theorem nextBytes_add (x : XofCtx) (h : x.mode = .squeeze) (l1 l2 : Nat) :
    x.nextBytes (l1 + l2) = x.nextBytes l1 ++ (x.advance l1).nextBytes l2 := by
  rw [nextBytes_eq_squeeze x h, nextBytes_eq_squeeze x h, nextBytes_eq_squeeze _ (show (x.advance l1).mode = .squeeze from h),
    advance_sponge x h, squeeze_add]

/-- What a context has put out since it entered SQUEEZE, and what it puts out next, is one stream (R140). -/
theorem shake256_append_nextBytes (x : XofCtx) (l : Nat) :
    shake256 x.msg x.out ++ x.nextBytes l = shake256 x.msg (x.out + l) := by
  rw [XofCtx.nextBytes, ← shake256_take x.msg x.out l, List.take_append_drop]

end Sys2Proof.Machine
end

