-- ==== Sys2Proof/Laws/Exec.lean ====
section
/-! SUPPORT. What a command can do, said once: `exec_next_cases`. -/

namespace Sys2Proof.Machine

/-- The command `i` passes its checks in `s`, writes what makes `u` of `s`, and reports `r`. -/
def Effect (i : Instr) (s u : State) (r : Nat) : Prop :=
  match i with
  | .xofInit c => u = s.setCtx c { mode := .absorb, msg := [], out := 0 } ∧ r = 0
  | .xofAbsorb c a l =>
    a + l ≤ 4096 ∧ s.ctx[c].mode = .absorb ∧
      ∃ bs, s.buf.readBytes a l = some bs ∧ u = s.setCtx c { s.ctx[c] with msg := s.ctx[c].msg ++ bs } ∧ r = l
  | .xofFinal c =>
    s.ctx[c].mode = .absorb ∧ u = s.setCtx c { s.ctx[c] with mode := .squeeze, out := 0 } ∧ r = 0
  | .xofSqueeze c a l =>
    a + l ≤ 4096 ∧ s.ctx[c].mode = .squeeze ∧
      u = { s.setCtx c (s.ctx[c].advance l) with buf := s.buf.writeBytes a (s.ctx[c].nextBytes l) } ∧ r = l
  | .xofSeed c a l =>
    l = 48 ∧ a + 48 ≤ 4096 ∧
      ∃ bs, s.buf.readBytes a 48 = some bs ∧ u = s.setCtx c { mode := .squeeze, msg := bs, out := 0 } ∧ r = 48
  | .xofClear c => u = s.setCtx c XofCtx.cleared ∧ r = 0
  | .compDec a l =>
    a + l ≤ 4096 ∧
      ∃ bs v, s.buf.readBytes a l = some bs ∧ compDecode 1024 bs = some v ∧
        u = { s with coef := s.coef.writeCoefs v } ∧ r = l
  | .ctEnc a l =>
    a + l ≤ 4096 ∧ 1536 ≤ l ∧
      ∃ v, s.coef.readCoefs = some v ∧ v.all coefInRange = true ∧
        u = { s with buf := s.buf.writeBytes a (ctEncode v) } ∧ r = 1536
  | .compEnc a l =>
    a + l ≤ 4096 ∧
      ∃ v, s.coef.readCoefs = some v ∧ v.all coefInRange = true ∧ (compEncode v).length ≤ l ∧
        u = { s with buf := s.buf.writeBytes a (compEncode v) } ∧ r = (compEncode v).length
  | .ctDec a l =>
    a + l ≤ 4096 ∧ l = 1536 ∧
      ∃ bs v, s.buf.readBytes a 1536 = some bs ∧ ctDecode bs = some v ∧
        u = { s with coef := s.coef.writeCoefs v } ∧ r = 1536
  | .bufZero a l => a + l ≤ 4096 ∧ u = { s with buf := s.buf.writeBytes a (List.replicate l 0) } ∧ r = l
  | .coefZero => u = { s with coef := s.coef.writeCoefs (List.replicate Config.n 0) } ∧ r = 0

theorem inBuf_iff (a l : Nat) : inBuf a l = true ↔ a + l ≤ 4096 := decide_eq_true_iff

theorem inBuf_eq_false_iff (a l : Nat) : inBuf a l = false ↔ 4096 < a + l := by
  rw [← Bool.not_eq_true, inBuf_iff, not_le]

/-- A command that answers a next state either failed, with nothing changed but STATUS, PENDING and the program index, or
succeeded with its effect (60_exceptions.md R221, R222). -/
theorem exec_next_cases (i : Instr) (s t : State) (h : exec i s = .next t) :
    (∃ e, e ≠ .ok ∧ t = s.complete e) ∨
      ∃ u r, Effect i s u r ∧ t = { u.complete .ok with result := resultWord r } := by
  have hfail : ∀ e, e ≠ .ok → raiseErr e s = .next t → (∃ e, e ≠ .ok ∧ t = s.complete e) ∨
      ∃ u r, Effect i s u r ∧ t = { u.complete .ok with result := resultWord r } := by
    intro e he hr
    cases hr
    exact Or.inl ⟨e, he, rfl⟩
  have hdone : ∀ u r, Effect i s u r → done r u = .next t → (∃ e, e ≠ .ok ∧ t = s.complete e) ∨
      ∃ u r, Effect i s u r ∧ t = { u.complete .ok with result := resultWord r } := by
    intro u r he hr
    cases hr
    exact Or.inr ⟨u, r, he, rfl⟩
  have hin : ∀ a l, ¬ ((!inBuf a l) = true) → a + l ≤ 4096 := by
    intro a l hn
    rw [Bool.not_eq_true, Bool.not_eq_false', inBuf_iff] at hn
    exact hn
  cases i with
  | xofInit c => exact hdone _ _ ⟨rfl, rfl⟩ h
  | xofAbsorb c a l =>
    simp only [exec, execXofAbsorb] at h
    split at h
    · exact hfail _ (by decide) h
    · rename_i h1
      split at h
      · exact hfail _ (by decide) h
      · rename_i h2
        split at h
        · cases h
        · rename_i bs hbs
          exact hdone _ _ ⟨hin _ _ h1, not_not.1 h2, bs, hbs, rfl, rfl⟩ h
  | xofFinal c =>
    simp only [exec, execXofFinal] at h
    split at h
    · exact hfail _ (by decide) h
    · rename_i h1
      exact hdone _ _ ⟨not_not.1 h1, rfl, rfl⟩ h
  | xofSqueeze c a l =>
    simp only [exec, execXofSqueeze] at h
    split at h
    · exact hfail _ (by decide) h
    · rename_i h1
      split at h
      · exact hfail _ (by decide) h
      · rename_i h2
        exact hdone _ _ ⟨hin _ _ h1, not_not.1 h2, rfl, rfl⟩ h
  | xofSeed c a l =>
    simp only [exec, execXofSeed] at h
    split at h
    · exact hfail _ (by decide) h
    · rename_i h1
      split at h
      · exact hfail _ (by decide) h
      · rename_i h2
        split at h
        · cases h
        · rename_i bs hbs
          exact hdone _ _ ⟨not_not.1 h1, hin _ _ h2, bs, hbs, rfl, rfl⟩ h
  | xofClear c => exact hdone _ _ ⟨rfl, rfl⟩ h
  | compDec a l =>
    simp only [exec, execCompDec] at h
    split at h
    · exact hfail _ (by decide) h
    · rename_i h1
      split at h
      · cases h
      · rename_i bs hbs
        split at h
        · exact hfail _ (by decide) h
        · rename_i v hv
          exact hdone _ _ ⟨hin _ _ h1, bs, v, hbs, hv, rfl, rfl⟩ h
  | ctEnc a l =>
    simp only [exec, execCtEnc] at h
    split at h
    · exact hfail _ (by decide) h
    · rename_i h1
      split at h
      · cases h
      · rename_i v hv
        split at h
        · exact hfail _ (by decide) h
        · rename_i h2
          split at h
          · exact hfail _ (by decide) h
          · rename_i h3
            exact hdone _ _ ⟨hin _ _ h1, by simpa using h3, v, hv, by simpa using h2, rfl, rfl⟩ h
  | compEnc a l =>
    simp only [exec, execCompEnc] at h
    split at h
    · exact hfail _ (by decide) h
    · rename_i h1
      split at h
      · cases h
      · rename_i v hv
        split at h
        · exact hfail _ (by decide) h
        · rename_i h2
          split at h
          · exact hfail _ (by decide) h
          · rename_i h3
            exact hdone _ _ ⟨hin _ _ h1, v, hv, by simpa using h2, by simpa using h3, rfl, rfl⟩ h
  | ctDec a l =>
    simp only [exec, execCtDec] at h
    split at h
    · exact hfail _ (by decide) h
    · rename_i h1
      split at h
      · exact hfail _ (by decide) h
      · rename_i h2
        split at h
        · cases h
        · rename_i bs hbs
          split at h
          · exact hfail _ (by decide) h
          · rename_i v hv
            exact hdone _ _ ⟨hin _ _ h1, not_not.1 h2, bs, v, hbs, hv, rfl, rfl⟩ h
  | bufZero a l =>
    simp only [exec, execBufZero] at h
    split at h
    · exact hfail _ (by decide) h
    · rename_i h1
      exact hdone _ _ ⟨hin _ _ h1, rfl, rfl⟩ h
  | coefZero => exact hdone _ _ ⟨rfl, rfl⟩ h

/-- A command whose checks pass completes with its effect (60_exceptions.md R221). -/
theorem exec_of_effect {i : Instr} {s u : State} {r : Nat} (h : Effect i s u r) : exec i s = done r u := by
  have hin : ∀ a l, a + l ≤ 4096 → inBuf a l = true := fun a l => (inBuf_iff a l).2
  cases i with
  | xofInit c => obtain ⟨rfl, rfl⟩ := h; rfl
  | xofAbsorb c a l => obtain ⟨h1, h2, bs, h3, rfl, rfl⟩ := h; simp [exec, execXofAbsorb, hin _ _ h1, h2, h3, -Fin.getElem_fin]
  | xofFinal c => obtain ⟨h1, rfl, rfl⟩ := h; simp [exec, execXofFinal, h1, -Fin.getElem_fin]
  | xofSqueeze c a l => obtain ⟨h1, h2, rfl, rfl⟩ := h; simp [exec, execXofSqueeze, hin _ _ h1, h2, XofCtx.advance, -Fin.getElem_fin]
  | xofSeed c a l => obtain ⟨rfl, h2, bs, h3, rfl, rfl⟩ := h; simp [exec, execXofSeed, hin _ _ h2, h3]
  | xofClear c => obtain ⟨rfl, rfl⟩ := h; rfl
  | compDec a l => obtain ⟨h1, bs, v, h2, h3, rfl, rfl⟩ := h; simp [exec, execCompDec, hin _ _ h1, h2, h3]
  | ctEnc a l =>
    obtain ⟨h1, h2, v, h3, h4, rfl, rfl⟩ := h
    simp [exec, execCtEnc, hin _ _ h1, h3, h4, show ¬ l < 1536 by omega]
  | compEnc a l =>
    obtain ⟨h1, v, h3, h4, h5, rfl, rfl⟩ := h
    simp [exec, execCompEnc, hin _ _ h1, h3, h4, show ¬ l < (compEncode v).length by omega]
  | ctDec a l => obtain ⟨h1, rfl, bs, v, h2, h3, rfl, rfl⟩ := h; simp [exec, execCtDec, hin _ _ h1, h2, h3]
  | bufZero a l => obtain ⟨h1, rfl, rfl⟩ := h; simp [exec, execBufZero, hin _ _ h1]
  | coefZero => obtain ⟨rfl, rfl⟩ := h; rfl

/-- A command's own writes touch none of STATUS, RESULT, PENDING, the program, the index, the host's turns and the host's
data. -/
theorem Effect.frame {i : Instr} {s u : State} {r : Nat} (h : Effect i s u r) :
    u.status = s.status ∧ u.result = s.result ∧ u.pending = s.pending ∧ u.program = s.program ∧ u.pc = s.pc ∧
      u.script = s.script ∧ u.busData = s.busData := by
  cases i with
  | xofInit c => obtain ⟨rfl, -⟩ := h; simp
  | xofAbsorb c a l => obtain ⟨-, -, -, -, rfl, -⟩ := h; simp
  | xofFinal c => obtain ⟨-, rfl, -⟩ := h; simp
  | xofSqueeze c a l => obtain ⟨-, -, rfl, -⟩ := h; simp
  | xofSeed c a l => obtain ⟨-, -, -, -, rfl, -⟩ := h; simp
  | xofClear c => obtain ⟨rfl, -⟩ := h; simp
  | compDec a l => obtain ⟨-, -, -, -, -, rfl, -⟩ := h; simp
  | ctEnc a l => obtain ⟨-, -, -, -, -, rfl, -⟩ := h; simp
  | compEnc a l => obtain ⟨-, -, -, -, -, rfl, -⟩ := h; simp
  | ctDec a l => obtain ⟨-, -, -, -, -, -, rfl, -⟩ := h; simp
  | bufZero a l => obtain ⟨-, rfl, -⟩ := h; simp
  | coefZero => obtain ⟨rfl, -⟩ := h; simp

/-- The count a well-formed command reports fits RESULT's twelve bits (R42, R221). -/
theorem Effect.count_lt {i : Instr} {s u : State} {r : Nat} (h : Effect i s u r) (hw : i.wellFormed = true) :
    r < 4096 := by
  have hl : ∀ a l, (fits12 a && fits12 l) = true → l < 4096 := by
    intro a l h
    simp only [fits12, Bool.and_eq_true, decide_eq_true_eq] at h
    exact h.2
  cases i with
  | xofInit c => obtain ⟨-, rfl⟩ := h; omega
  | xofAbsorb c a l => obtain ⟨-, -, -, -, -, rfl⟩ := h; exact hl _ _ hw
  | xofFinal c => obtain ⟨-, -, rfl⟩ := h; omega
  | xofSqueeze c a l => obtain ⟨-, -, -, rfl⟩ := h; exact hl _ _ hw
  | xofSeed c a l => obtain ⟨-, -, -, -, -, rfl⟩ := h; omega
  | xofClear c => obtain ⟨-, rfl⟩ := h; omega
  | compDec a l => obtain ⟨-, -, -, -, -, -, rfl⟩ := h; exact hl _ _ hw
  | ctEnc a l => obtain ⟨-, -, -, -, -, -, rfl⟩ := h; omega
  | compEnc a l =>
    obtain ⟨-, v, -, -, hle, -, rfl⟩ := h
    exact lt_of_le_of_lt hle (hl _ _ hw)
  | ctDec a l => obtain ⟨-, -, -, -, -, -, -, rfl⟩ := h; omega
  | bufZero a l => obtain ⟨-, -, rfl⟩ := h; exact hl _ _ hw
  | coefZero => obtain ⟨-, rfl⟩ := h; omega

/-- The bytes an encoder or SQUEEZE writes stay inside BUF, the coefficients a decoder writes are N in number. -/
theorem Effect.storage {i : Instr} {s u : State} {r : Nat} (h : Effect i s u r) :
    (u.buf = s.buf ∨ ∃ a bs, a + bs.length ≤ 4096 ∧ u.buf = s.buf.writeBytes a bs) ∧
      (u.coef = s.coef ∨ ∃ v, v.length = Config.n ∧ u.coef = s.coef.writeCoefs v) := by
  cases i with
  | xofInit c => obtain ⟨rfl, -⟩ := h; exact ⟨Or.inl rfl, Or.inl rfl⟩
  | xofAbsorb c a l => obtain ⟨-, -, -, -, rfl, -⟩ := h; exact ⟨Or.inl rfl, Or.inl rfl⟩
  | xofFinal c => obtain ⟨-, rfl, -⟩ := h; exact ⟨Or.inl rfl, Or.inl rfl⟩
  | xofSqueeze c a l =>
    obtain ⟨h1, -, rfl, -⟩ := h
    exact ⟨Or.inr ⟨a, _, by rw [nextBytes_length]; exact h1, rfl⟩, Or.inl rfl⟩
  | xofSeed c a l => obtain ⟨-, -, -, -, rfl, -⟩ := h; exact ⟨Or.inl rfl, Or.inl rfl⟩
  | xofClear c => obtain ⟨rfl, -⟩ := h; exact ⟨Or.inl rfl, Or.inl rfl⟩
  | compDec a l =>
    obtain ⟨-, bs, v, -, hv, rfl, -⟩ := h
    exact ⟨Or.inl rfl, Or.inr ⟨v, (compDecode_some _ _ _ hv).1, rfl⟩⟩
  | ctEnc a l =>
    obtain ⟨h1, h2, v, hv, -, rfl, -⟩ := h
    have := ctEncode_length v (readCoef?_of_readCoefs _ _ hv).1
    exact ⟨Or.inr ⟨a, _, by omega, rfl⟩, Or.inl rfl⟩
  | compEnc a l =>
    obtain ⟨h1, v, hv, -, h2, rfl, -⟩ := h
    exact ⟨Or.inr ⟨a, _, by omega, rfl⟩, Or.inl rfl⟩
  | ctDec a l =>
    obtain ⟨-, -, bs, v, hbs, hv, rfl, -⟩ := h
    exact ⟨Or.inl rfl, Or.inr ⟨v, (ctDecode_some _ _ ((readBytes_eq_some_iff _ _ _ _).1 hbs).1 hv).1, rfl⟩⟩
  | bufZero a l =>
    obtain ⟨h1, rfl, -⟩ := h
    exact ⟨Or.inr ⟨a, _, by rw [List.length_replicate]; exact h1, rfl⟩, Or.inl rfl⟩
  | coefZero =>
    obtain ⟨rfl, -⟩ := h
    exact ⟨Or.inl rfl, Or.inr ⟨_, by rw [List.length_replicate], rfl⟩⟩

/-- A command touches at most the context it names (10_state.md R34). -/
theorem Effect.otherCtx {i : Instr} {s u : State} {r : Nat} (h : Effect i s u r) (d : CtxId) (hd : ctxOf i ≠ some d) :
    u.ctx[d] = s.ctx[d] := by
  have key : ∀ c x, some c ≠ some d → (s.setCtx c x).ctx[d] = s.ctx[d] := fun c x hne =>
    setCtx_ctx_other s c d x (fun e => hne (by rw [e]))
  cases i with
  | xofInit c => obtain ⟨rfl, -⟩ := h; exact key _ _ hd
  | xofAbsorb c a l => obtain ⟨-, -, -, -, rfl, -⟩ := h; exact key _ _ hd
  | xofFinal c => obtain ⟨-, rfl, -⟩ := h; exact key _ _ hd
  | xofSqueeze c a l => obtain ⟨-, -, rfl, -⟩ := h; exact key _ _ hd
  | xofSeed c a l => obtain ⟨-, -, -, -, rfl, -⟩ := h; exact key _ _ hd
  | xofClear c => obtain ⟨rfl, -⟩ := h; exact key _ _ hd
  | compDec a l => obtain ⟨-, -, -, -, -, rfl, -⟩ := h; rfl
  | ctEnc a l => obtain ⟨-, -, -, -, -, rfl, -⟩ := h; rfl
  | compEnc a l => obtain ⟨-, -, -, -, -, rfl, -⟩ := h; rfl
  | ctDec a l => obtain ⟨-, -, -, -, -, -, rfl, -⟩ := h; rfl
  | bufZero a l => obtain ⟨-, rfl, -⟩ := h; rfl
  | coefZero => obtain ⟨rfl, -⟩ := h; rfl

end Sys2Proof.Machine
end

