-- ==== Sys2Proof/Laws/PerInstr.lean ====
section
/-! SUPPORT. Statements about every command, one lemma per constructor. -/

namespace Sys2Proof.Laws.EncodeOpcode

/-- The OP field of a well-formed command's word is the command's opcode (30_encoding.md R104). -/
def Statement (i : Instr) : Prop := i.wellFormed = true → fieldOp (encode i) = i.opcode

theorem operands (a l : Nat) (h : (fits12 a && fits12 l) = true) : a < 4096 ∧ l < 4096 := by
  rwa [Bool.and_eq_true, fits12_iff, fits12_iff] at h

theorem xofInit (c : CtxId) : Statement (.xofInit c) := fun _ => (fields_packCW 1 c 0 0 (by omega) (by omega) (by omega)).1
theorem xofAbsorb (c : CtxId) (a l : Nat) : Statement (.xofAbsorb c a l) := fun h =>
  (fields_packCW 2 c a l (by omega) (operands a l h).1 (operands a l h).2).1
theorem xofFinal (c : CtxId) : Statement (.xofFinal c) := fun _ => (fields_packCW 3 c 0 0 (by omega) (by omega) (by omega)).1
theorem xofSqueeze (c : CtxId) (a l : Nat) : Statement (.xofSqueeze c a l) := fun h =>
  (fields_packCW 4 c a l (by omega) (operands a l h).1 (operands a l h).2).1
theorem xofSeed (c : CtxId) (a l : Nat) : Statement (.xofSeed c a l) := fun h =>
  (fields_packCW 5 c a l (by omega) (operands a l h).1 (operands a l h).2).1
theorem xofClear (c : CtxId) : Statement (.xofClear c) := fun _ => (fields_packCW 6 c 0 0 (by omega) (by omega) (by omega)).1
theorem compDec (a l : Nat) : Statement (.compDec a l) := fun h =>
  (fields_packCW 16 0 a l (by omega) (operands a l h).1 (operands a l h).2).1
theorem ctEnc (a l : Nat) : Statement (.ctEnc a l) := fun h =>
  (fields_packCW 17 0 a l (by omega) (operands a l h).1 (operands a l h).2).1
theorem compEnc (a l : Nat) : Statement (.compEnc a l) := fun h =>
  (fields_packCW 18 0 a l (by omega) (operands a l h).1 (operands a l h).2).1
theorem ctDec (a l : Nat) : Statement (.ctDec a l) := fun h =>
  (fields_packCW 19 0 a l (by omega) (operands a l h).1 (operands a l h).2).1
theorem bufZero (a l : Nat) : Statement (.bufZero a l) := fun h =>
  (fields_packCW 32 0 a l (by omega) (operands a l h).1 (operands a l h).2).1
theorem coefZero : Statement .coefZero := fun _ => (fields_packCW 33 0 0 0 (by omega) (by omega) (by omega)).1

end Sys2Proof.Laws.EncodeOpcode
end

