-- ==== Sys2Proof/Laws/Window.lean ====
section
/-! SUPPORT. Where a host access goes and what it can do, said once: `hostAccess_next_cases`. -/

namespace Sys2Proof.Machine

theorem bytes_pos (w : Width) : 1 ≤ w.bytes := by cases w <;> decide

/-- An access to a register (20_memory.md R72, R77). -/
theorem place_reg (w : Width) (o : Nat) (h : o < 0x14) :
    place w o = if w = .w32 ∧ o % 4 = 0 then .ok (.reg (regAt o)) else .error .busError := by
  have hb : w.bytes ≤ 8 := by cases w <;> decide
  have h1 := bytes_pos w
  have hw : ¬ Config.windowBytes < o + w.bytes := by simp only [Config.windowBytes]; omega
  have hr : reaches o w.bytes 0x0000 0x0014 = true := by simp only [reaches, Bool.and_eq_true, decide_eq_true_eq]; omega
  rw [place, if_neg hw, if_pos hr]

/-- An access that reaches BUF or COEF first (R72, R77). -/
theorem place_storage (w : Width) (o : Nat) (h1 : 0x1000 ≤ o) (h2 : o < 0x2800) :
    place w o = if w ≠ .w64 ∧ o % w.bytes = 0 then
      .ok (if o < 0x2000 then .buf (o - 0x1000) else .coef (o - 0x2000)) else .error .busError := by
  have hb : w.bytes ≤ 8 := by cases w <;> decide
  have hp := bytes_pos w
  have hw : ¬ Config.windowBytes < o + w.bytes := by simp only [Config.windowBytes]; omega
  have hr : ¬ reaches o w.bytes 0x0000 0x0014 = true := by
    simp only [reaches, Bool.and_eq_true, decide_eq_true_eq]; omega
  rw [place, if_neg hw, if_neg hr]
  by_cases h : o < 0x2000
  · rw [if_pos (by simp only [reaches, Bool.and_eq_true, decide_eq_true_eq]; omega), if_pos h]
  · rw [if_neg (by simp only [reaches, Bool.and_eq_true, decide_eq_true_eq]; omega),
      if_pos (by simp only [reaches, Bool.and_eq_true, decide_eq_true_eq]; omega), if_neg h]

/-- An allowed access to BUF goes to BUF (R73, R77). -/
theorem place_buf (w : Width) (a : Nat) (h : a + w.bytes ≤ 4096) (hs : StorageAccess w a) :
    place w (0x1000 + a) = .ok (.buf a) := by
  have hp := bytes_pos w
  have hm : (0x1000 + a) % w.bytes = 0 := by
    have h2 := hs.2
    cases w <;> simp only [Width.bytes] at h2 ⊢ <;> omega
  rw [place_storage w _ (by omega) (by omega), if_pos ⟨hs.1, hm⟩, if_pos (by omega), Nat.add_sub_cancel_left]

/-- An allowed access to COEF goes to COEF (R73, R77). -/
theorem place_coef (w : Width) (a : Nat) (h : a + w.bytes ≤ 2048) (hs : StorageAccess w a) :
    place w (0x2000 + a) = .ok (.coef a) := by
  have hp := bytes_pos w
  have hm : (0x2000 + a) % w.bytes = 0 := by
    have h2 := hs.2
    cases w <;> simp only [Width.bytes] at h2 ⊢ <;> omega
  rw [place_storage w _ (by omega) (by omega), if_pos ⟨hs.1, hm⟩, if_neg (by omega), Nat.add_sub_cancel_left]

/-- An access wholly in reserved offsets (R45, R72). -/
theorem place_reserved (w : Width) (o : Nat) (h : (0x14 ≤ o ∧ o + w.bytes ≤ 0x1000) ∨ (0x2800 ≤ o ∧ o + w.bytes ≤ 0x4000)) :
    place w o = .ok .reserved := by
  have hw : ¬ Config.windowBytes < o + w.bytes := by simp only [Config.windowBytes]; omega
  have hr : ∀ lo hi, (lo, hi) ∈ [(0x0000, 0x0014), (0x1000, 0x2000), (0x2000, 0x2800)] → ¬ reaches o w.bytes lo hi = true := by
    intro lo hi hm
    simp only [List.mem_cons, Prod.mk.injEq, List.not_mem_nil, or_false] at hm
    simp only [reaches, Bool.and_eq_true, decide_eq_true_eq]
    omega
  rw [place, if_neg hw, if_neg (hr _ _ (by simp)), if_neg (hr _ _ (by simp)), if_neg (hr _ _ (by simp))]

/-- The outcomes of `place`, each with what it says of the offset (20_memory.md R72, R77). -/
theorem place_ok_cases (w : Width) (o : Nat) (p : Place) (h : place w o = .ok p) :
    o + w.bytes ≤ 0x4000 ∧
      ((w = .w32 ∧ o % 4 = 0 ∧ o < 0x14 ∧ p = .reg (regAt o)) ∨
        (w ≠ .w64 ∧ o % w.bytes = 0 ∧ 0x1000 ≤ o ∧ o + w.bytes ≤ 0x2000 ∧ p = .buf (o - 0x1000)) ∨
        (w ≠ .w64 ∧ o % w.bytes = 0 ∧ 0x2000 ≤ o ∧ o + w.bytes ≤ 0x2800 ∧ p = .coef (o - 0x2000)) ∨
        (0x14 ≤ o ∧ (o + w.bytes ≤ 0x1000 ∨ 0x2800 ≤ o) ∧ p = .reserved)) := by
  have hb := bytes_pos w
  simp only [place, reaches, Config.windowBytes, Bool.and_eq_true, decide_eq_true_eq] at h
  split at h
  · cases h
  · split at h
    · split at h
      · rename_i hr hw
        cases h
        exact ⟨by omega, Or.inl ⟨hw.1, hw.2, by omega, rfl⟩⟩
      · cases h
    · split at h
      · split at h
        · rename_i hr hw
          cases h
          refine ⟨by omega, Or.inr (Or.inl ⟨hw.1, hw.2, ?_, ?_, rfl⟩)⟩
          all_goals cases w <;> simp [Width.bytes] at * <;> omega
        · cases h
      · split at h
        · split at h
          · rename_i hr hw
            cases h
            refine ⟨by omega, Or.inr (Or.inr (Or.inl ⟨hw.1, hw.2, ?_, ?_, rfl⟩))⟩
            all_goals cases w <;> simp [Width.bytes] at * <;> omega
          · cases h
        · cases h
          exact ⟨by omega, Or.inr (Or.inr (Or.inr ⟨by omega, by omega, rfl⟩))⟩

@[simp] theorem leBytes_length (n : Nat) (v : Word) : (leBytes n v).length = n := by simp [leBytes]

/-- A host access that answers a next state did one of these: it read, wrote a register, wrote BUF or COEF bytes while the
block was not busy, or wrote a reserved offset. -/
theorem hostAccess_next_cases (x : Access) (s t : State) (h : hostAccess x s = .next t) :
    (∃ v, t = { s with busData := some v }) ∨ (∃ r v, t = writeReg r v s) ∨
      (∃ a bs, a + bs.length ≤ 0x1000 ∧ statusBusy s.status = false ∧ t = { s with buf := s.buf.writeBytes a bs }) ∨
      (∃ a bs, a + bs.length ≤ 0x800 ∧ statusBusy s.status = false ∧ t = { s with coef := s.coef.writeBytes a bs }) ∨
      t = s := by
  cases x with
  | read w o =>
    have hst : ∀ m f a, readStorage m f w a s = .next t → ∃ v, t = { s with busData := some v } := by
      intro m f a hr
      simp only [readStorage] at hr
      split at hr
      · cases hr
      · split at hr
        · cases hr
        · cases hr; exact ⟨_, rfl⟩
    left
    simp only [hostAccess, hostRead] at h
    split at h
    · cases h
    · cases h; exact ⟨_, rfl⟩
    · exact hst _ _ _ h
    · exact hst _ _ _ h
    · cases h; exact ⟨_, rfl⟩
  | write w o v =>
    right
    simp only [hostAccess, hostWrite] at h
    split at h
    · cases h
    · cases h; exact Or.inl ⟨_, _, rfl⟩
    · rename_i a hp
      split at h
      · cases h
      · rename_i hbusy
        cases h
        obtain ⟨-, h1 | h1 | h1 | h1⟩ := place_ok_cases _ _ _ hp
        · cases h1.2.2.2
        · have ha := Place.buf.inj h1.2.2.2.2
          exact Or.inr (Or.inl ⟨_, _, by rw [leBytes_length]; omega, by simpa using hbusy, rfl⟩)
        · cases h1.2.2.2.2
        · cases h1.2.2
    · rename_i a hp
      split at h
      · cases h
      · rename_i hbusy
        cases h
        obtain ⟨-, h1 | h1 | h1 | h1⟩ := place_ok_cases _ _ _ hp
        · cases h1.2.2.2
        · cases h1.2.2.2.2
        · have ha := Place.coef.inj h1.2.2.2.2
          exact Or.inr (Or.inr (Or.inl ⟨_, _, by rw [leBytes_length]; omega, by simpa using hbusy, rfl⟩))
        · cases h1.2.2
    · cases h; exact Or.inr (Or.inr (Or.inr rfl))

/-- What a host write to a register leaves as it was (R40 to R44). -/
theorem writeReg_frame (r : Reg) (v : Word) (s : State) :
    (writeReg r v s).ctx = s.ctx ∧ (writeReg r v s).buf = s.buf ∧ (writeReg r v s).coef = s.coef ∧
      (writeReg r v s).result = s.result ∧ (writeReg r v s).pc = s.pc ∧ (writeReg r v s).script = s.script ∧
      (writeReg r v s).busData = s.busData := by
  cases r <;> simp only [writeReg, writeCmd] <;> (try split) <;> simp [acceptCmd]

/-- The bytes of a word the host reads, lowest address in the lowest bits (R74). -/
theorem leWord_spec (bs : List Byte) (h : bs.length ≤ 4) :
    (∀ k < bs.length, bs[k]? = some ((leWord bs).extractLsb' (8 * k) 8)) ∧ (leWord bs).toNat < 2 ^ (8 * bs.length) := by
  induction bs with
  | nil => simp [leWord]
  | cons b bs ih =>
    have hl : bs.length ≤ 3 := by rw [List.length_cons] at h; omega
    obtain ⟨ih1, ih2⟩ := ih (by omega)
    have hb := b.isLt
    have hp : 2 ^ (8 * bs.length) ≤ 2 ^ 24 := Nat.pow_le_pow_right (by omega) (by omega)
    have hn : (leWord (b :: bs)).toNat = 2 ^ 8 * (leWord bs).toNat + b.toNat := by
      rw [leWord, BitVec.toNat_or, BitVec.toNat_shiftLeft, BitVec.toNat_setWidth, Nat.mod_eq_of_lt (a := b.toNat) (by omega),
        Nat.mod_eq_of_lt (b := 2 ^ 32) (by rw [Nat.shiftLeft_eq]; omega), ← Nat.shiftLeft_add_eq_or_of_lt hb,
        Nat.shiftLeft_eq, Nat.mul_comm]
    constructor
    · intro k hk
      cases k with
      | zero =>
        rw [List.getElem?_cons_zero]
        congr 1
        apply BitVec.eq_of_toNat_eq
        rw [BitVec.extractLsb'_toNat, hn]
        simp only [Nat.mul_zero, Nat.shiftRight_zero]
        omega
      | succ k =>
        rw [List.getElem?_cons_succ, ih1 k (by simpa using hk)]
        congr 1
        apply BitVec.eq_of_toNat_eq
        rw [BitVec.extractLsb'_toNat, BitVec.extractLsb'_toNat, hn, show 8 * (k + 1) = 8 + 8 * k by omega,
          Nat.shiftRight_add]
        congr 2
        rw [Nat.shiftRight_eq_div_pow]
        omega
    · rw [hn, List.length_cons, show 8 * (bs.length + 1) = 8 + 8 * bs.length by omega, Nat.pow_add]
      omega

end Sys2Proof.Machine
end

