-- ==== Sys2Proof/Laws/Step.lean ====
section
/-! SUPPORT. What a step can do, said once: `step_next_cases`. -/

namespace Sys2Proof.Machine

theorem step_eq_nextTurn (s : State) : step s = nextTurn s := rfl

theorem step_script_nil (s : State) (h : s.script = []) : step s = engineStep s := by
  rw [step, nextTurn, h]
  rfl

theorem step_script_cons (s : State) (t : Turn) (ts : List Turn) (h : s.script = t :: ts) :
    step s = takeTurn t { s with script := ts } := by
  rw [step, nextTurn, h]

theorem execWord_ok (w : Word) (i : Instr) (s : State) (h : decode w = .ok i) : execWord w s = exec i s := by
  rw [execWord, h]

theorem execWord_error (w : Word) (e : DecodeError) (s : State) (h : decode w = .error e) :
    execWord w s = raiseErr .illegal s := by
  rw [execWord, h]

theorem engineStep_some (w : Word) (s : State) (h : s.pending = some w) : engineStep s = execWord w s := by
  rw [engineStep, h]

theorem engineStep_none (s : State) (h : s.pending = none) : engineStep s = .next s := by
  rw [engineStep, h]

/-- What ENGINE's turn does when it answers a next state (10_state.md R47). -/
theorem engineStep_next_cases (s t : State) (h : engineStep s = .next t) :
    (s.pending = none ∧ t = s) ∨
      ∃ w, s.pending = some w ∧
        ((∃ e, decode w = .error e ∧ t = s.complete .illegal) ∨ ∃ i, decode w = .ok i ∧ exec i s = .next t) := by
  cases hp : s.pending with
  | none =>
    rw [engineStep_none s hp] at h
    cases h
    exact Or.inl ⟨rfl, rfl⟩
  | some w =>
    rw [engineStep_some w s hp] at h
    right
    refine ⟨w, rfl, ?_⟩
    cases hd : decode w with
    | error e =>
      rw [execWord_error w e s hd] at h
      cases h
      exact Or.inl ⟨e, rfl, rfl⟩
    | ok i =>
      rw [execWord_ok w i s hd] at h
      exact Or.inr ⟨i, rfl, h⟩

/-- Every step is a host access, ENGINE's turn, or reset, taken with that turn gone from the script (20_memory.md R84). -/
theorem step_next_cases (s t : State) (h : step s = .next t) :
    ∃ ts, (∃ x, hostAccess x { s with script := ts } = .next t) ∨ engineStep { s with script := ts } = .next t ∨
      t = resetStep { s with script := ts } := by
  cases hs : s.script with
  | nil =>
    rw [step_script_nil s hs] at h
    refine ⟨[], Or.inr (Or.inl ?_)⟩
    rw [show { s with script := [] } = s by rw [← hs]]
    exact h
  | cons u ts =>
    rw [step_script_cons s u ts hs] at h
    refine ⟨ts, ?_⟩
    cases u with
    | host x => exact Or.inl ⟨x, h⟩
    | engine => exact Or.inr (Or.inl h)
    | reset =>
      cases h
      exact Or.inr (Or.inr rfl)

/-- `withFetchWord` makes the next step ENGINE's, with that word (log entry 9). -/
theorem step_withFetchWord (s : State) (nbits w : Nat) :
    step (s.withFetchWord nbits w) = execWord (tableWord nbits w) { latchNext (tableWord nbits w) s with script := s.script } := by
  rw [State.withFetchWord, step_script_cons _ .engine s.script rfl]
  rfl

end Sys2Proof.Machine
end

