-- ==== Sys2Proof/Tests/Slice0.lean ====
section
/-! SUPPORT. Tests with expected values from 95_test_vectors.md and the examples of the rules (V and P numbers name the
vector), and, for every statement with hypotheses, a witness that meets them. -/

namespace Sys2Proof.Tests

open Sys2Proof Sys2Proof.Machine

/-! ### Helpers -/

/-- The outcome is a next state that passes the check. -/
def nextIs (r : Result) (p : State → Bool) : Bool :=
  match r with
  | .next t => p t
  | .fault _ => false
  | .refused _ => false

/-- The reset state with these bytes in BUF from `a` on. -/
def onBuf (a : Nat) (bs : List Byte) : State := { State.reset with buf := Memory.writeBytes [] a bs }

/-- The reset state with these first coefficients in COEF and zeros after them. -/
def onCoef (v : List Coef) : State :=
  { State.reset with coef := Memory.writeCoefs [] (v ++ List.replicate (1024 - v.length) 0) }

/-- The state with context `c` replaced. -/
def withCtx (c : CtxId) (m : Mode) (msg : List Byte) (out : Nat) (s : State) : State :=
  s.setCtx c { mode := m, msg := msg, out := out }

/-- The state after the script of these turns, each taken. -/
def afterTurns (ts : List Turn) (s : State) : Result := Host.Core.run core ts.length { s with script := ts }

/-- "abc". -/
def abc : List Byte := [0x61, 0x62, 0x63]

/-- The bytes 00 01 … 2F of V6. -/
def seed48 : List Byte := (List.range 48).map (BitVec.ofNat 8)

/-- The stream of the zero vector (95_test_vectors.md 2.2, Z1152). -/
def z1152 : List Byte := (List.replicate 128 [0x00, 0x80, 0x40, 0x20, 0x10, 0x08, 0x04, 0x02, 0x01]).flatten

/-- COEF = K3 of 95_test_vectors.md, its first entries. -/
def k3 : List Coef := [1, 0xFFFF, 127, 128, 0xF801, 2047]

/-! ### Encoding -/

/-- Words with an operand that does not fit its field are refused. -/
theorem test_wellFormed_addr : (Instr.xofAbsorb 0 4096 1).wellFormed = false := by decide
theorem test_wellFormed_len : (Instr.xofSqueeze 3 0 4096).wellFormed = false := by decide
theorem test_wellFormed_seed : (Instr.xofSeed 0 0 4096).wellFormed = false := by decide
theorem test_wellFormed_codec :
    ([Instr.compDec 4096 0, .ctEnc 0 4096, .compEnc 4096 0, .ctDec 0 4096, .bufZero 4096 1].any
      Instr.wellFormed) = false := by decide
theorem test_wellFormed_ok : (Instr.bufZero 4095 4095).wellFormed = true := by decide

/-- One word of every command, from the vectors of 95_test_vectors.md part 2. -/
theorem test_decode_xof :
    decode 0x06000000 = .ok (.xofInit 2) ∧ decode 0x08FFF002 = .ok (.xofAbsorb 0 0xFFF 2) ∧
      decode 0x0E000000 = .ok (.xofFinal 2) ∧ decode 0x12210008 = .ok (.xofSqueeze 2 0x210 8) ∧
      decode 0x14FD1030 = .ok (.xofSeed 0 0xFD1 48) ∧ decode 0x19000000 = .ok (.xofClear 1) := by decide
theorem test_decode_codec :
    decode 0x40C00401 = .ok (.compDec 0xC00 0x401) ∧ decode 0x441005FF = .ok (.ctEnc 0x100 1535) ∧
      decode 0x48401C00 = .ok (.compEnc 0x401 3072) ∧ decode 0x4CA015FF = .ok (.ctDec 0xA01 1535) := by decide
theorem test_decode_buffer : decode 0x80FFF001 = .ok (.bufZero 0xFFF 1) ∧ decode 0x84000000 = .ok .coefZero := by decide

/-- V18, V40, V44, V45: the illegal words. -/
theorem test_decode_illegal :
    [0x04001000, 0x04000001, 0x0C000001, 0x18001000, 0x41000480, 0x45000600, 0x49000600, 0x4D000600, 0x50000000,
      0x7C000000, 0x84000001, 0x85000000, 0x84001000, 0x81000000, 0x00000000, 0x1C000000,
      0xFC000000].all (fun w => !(decode w).toBool) = true := by decide

/-- No word selects two rows of R109. -/
theorem test_rows_disjoint :
    opcodeRows.Pairwise fun r q => r.pattern &&& (r.mask &&& q.mask) ≠ q.pattern &&& (r.mask &&& q.mask) := by decide

theorem test_decodeTableWord : decodeTableWord 32 0x08000003 = some (.xofAbsorb 0 0 3) ∧ decodeTableWord 32 0 = none := by
  decide

/-- The word after reset runs as the first instruction: R141's example, INIT of c2. -/
theorem test_first_step_init :
    nextIs (step (State.reset.withFetchWord 32 0x06000000)) (fun t =>
      decide (t.ctx[2] = { mode := .absorb, msg := [], out := 0 }) && xstat t == 0x00000010 && t.status == 0 &&
        t.pc == 1 && t.program == [0x06000000]) = true := by decide

/-- V45: the all-zero word leaves status 0x110. -/
theorem test_first_step_illegal :
    nextIs (step (State.reset.withFetchWord 32 0)) (fun t =>
      t.status == 0x00000110 && t.result == 0 && xstat t == 0 && t.pc == 1) = true := by decide

/-! ### XOF commands -/

/-- V19: INIT of a context in SQUEEZE discards its seed and output position. -/
theorem test_xofInit :
    nextIs (exec (.xofInit 2) (withCtx 2 .squeeze seed48 5 State.reset)) (fun t =>
      decide (t.ctx[2] = { mode := .absorb, msg := [], out := 0 }) && xstat t == 0x00000010) = true := by decide

/-- R142's example. -/
theorem test_xofAbsorb :
    nextIs (exec (.xofAbsorb 0 0 3) (withCtx 0 .absorb [] 0 (onBuf 0 abc))) (fun t =>
      t.ctx[0].msg == abc && t.result == 3 && t.status == 0) = true := by decide

/-- V16: RANGE is checked before STATE. -/
theorem test_xofAbsorb_range_first :
    nextIs (exec (.xofAbsorb 0 0xFFF 2) State.reset) (fun t => t.status == 0x00000120 && t.result == 0) = true := by decide

/-- V13: a second FINAL is STATE. -/
theorem test_xofFinal_twice :
    nextIs (exec (.xofFinal 0) (withCtx 0 .absorb [] 0 State.reset)) (fun t =>
      nextIs (exec (.xofFinal 0) t) fun u => u.status == 0x00000140) = true := by decide

/-- V3, P1: the first bytes of SHAKE256("abc"). -/
theorem test_xofSqueeze_abc :
    nextIs (exec (.xofSqueeze 0 0x100 8) (withCtx 0 .squeeze abc 0 State.reset)) (fun t =>
      t.buf.readBytes 0x100 8 == some [0x48, 0x33, 0x66, 0x60, 0x13, 0x60, 0xa8, 0x77] && t.ctx[0].out == 8 &&
        t.result == 8) = true := by decide +kernel

/-- P4: bytes 8 to 15 of SHAKE256 of the empty message. -/
theorem test_xofSqueeze_continues :
    nextIs (exec (.xofSqueeze 2 0x210 8) (withCtx 2 .squeeze [] 8 State.reset)) (fun t =>
      t.buf.readBytes 0x210 8 == some [0x23, 0x3b, 0x3f, 0xeb, 0x74, 0x3e, 0xeb, 0x24] && t.ctx[2].out == 16) = true := by
  decide +kernel

/-- V6: SEED takes the 48 bytes. -/
theorem test_xofSeed :
    nextIs (exec (.xofSeed 1 0 48) (onBuf 0 seed48)) (fun t =>
      decide (t.ctx[1] = { mode := .squeeze, msg := seed48, out := 0 }) && t.result == 48 && xstat t == 0x00000008) = true := by
  decide

/-- V15: ARG is checked before RANGE. -/
theorem test_xofSeed_arg_first :
    nextIs (exec (.xofSeed 0 0xFFF 47) State.reset) (fun t => t.status == 0x00000130) = true := by decide

/-- V17: after CLEAR, SQUEEZE is STATE. -/
theorem test_xofClear :
    nextIs (exec (.xofClear 1) (withCtx 1 .squeeze seed48 0 State.reset)) (fun t =>
      xstat t == 0 && t.status == 0 && nextIs (exec (.xofSqueeze 1 0x100 16) t) fun u => u.status == 0x00000140) = true := by
  decide

/-! ### Codec commands -/

/-- V20: the stream of the zero vector. -/
theorem test_compDec :
    nextIs (exec (.compDec 0 1152) (onBuf 0 z1152)) (fun t =>
      t.coef.readCoefs == some (List.replicate 1024 0) && t.result == 1152 && t.status == 0) = true := by decide +kernel

/-- V22: "-0" is FORMAT and leaves COEF as it was. -/
theorem test_compDec_minus_zero :
    nextIs (exec (.compDec 0 1152) (onBuf 0 (0x80 :: z1152.tail))) (fun t =>
      t.status == 0x00000170 && t.coef == []) = true := by decide +kernel

/-- V24: COEF = K3. -/
theorem test_compEnc :
    nextIs (exec (.compEnc 0 1421) (onCoef k3)) (fun t =>
      t.buf.readBytes 0 16 == some [0x01, 0xc0, 0xdf, 0xe0, 0x0f, 0xf8, 0x00, 0x0b, 0xf8, 0x00, 0x08, 0x04, 0x02, 0x01,
        0x00, 0x80] && t.result == 1156) = true := by decide +kernel

/-- V28: the stream of K3 does not fit 1155 bytes, and nothing is written. -/
theorem test_compEnc_overflow :
    nextIs (exec (.compEnc 0x800 1155) (onCoef k3)) (fun t => t.status == 0x00000160 && t.buf == []) = true := by
  decide +kernel

/-- V30: COEF = K3. -/
theorem test_ctEnc :
    nextIs (exec (.ctEnc 0 1536) (onCoef k3)) (fun t =>
      t.buf.readBytes 0 10 == some [0x00, 0x1f, 0xff, 0x07, 0xf0, 0x80, 0x80, 0x17, 0xff, 0x00] &&
        t.result == 1536) = true := by decide +kernel

/-- V27: VALUE is checked before OVERFLOW. -/
theorem test_ctEnc_value_first :
    nextIs (exec (.ctEnc 0 10) (onCoef [2048])) (fun t => t.status == 0x00000150 && t.buf == []) = true := by decide +kernel

/-- V33: the slot 0x801 is -2047. -/
theorem test_ctDec :
    nextIs (exec (.ctDec 0 1536) (onBuf 0 (0x80 :: 0x10 :: List.replicate 1534 0))) (fun t =>
      t.coef.readCoef? 0 == some 0xF801 && t.coef.readCoef? 1 == some 0 && t.coef.readCoef? 1023 == some 0 &&
        t.result == 1536) = true := by decide +kernel

/-- V34: the slot 0x800 is FORMAT. -/
theorem test_ctDec_minus_2048 :
    nextIs (exec (.ctDec 0 1536) (onBuf 0 (0x80 :: 0x00 :: List.replicate 1534 0))) (fun t =>
      t.status == 0x00000170 && t.coef == []) = true := by decide +kernel

/-! ### Buffer commands -/

/-- V41, with 4 of 6 bytes. -/
theorem test_bufZero :
    nextIs (exec (.bufZero 0 4) (onBuf 0 [0x11, 0x11, 0x11, 0x11, 0x11, 0x11])) (fun t =>
      t.buf.readBytes 0 6 == some [0, 0, 0, 0, 0x11, 0x11] && t.result == 4) = true := by decide

/-- V42: the last byte, and one past it. -/
theorem test_bufZero_end :
    nextIs (exec (.bufZero 0xFFF 1) State.reset) (fun t =>
      t.buf.read? 0xFFF == some 0 && nextIs (exec (.bufZero 0xFFF 2) t) fun u =>
        u.status == 0x00000120 && u.result == 1) = true := by decide

/-- V44. -/
theorem test_coefZero :
    nextIs (exec .coefZero State.reset) (fun t =>
      t.coef.readCoefs == some (List.replicate 1024 0) && t.result == 0) = true := by decide +kernel

/-! ### The host window -/

/-- V47. -/
theorem test_window_reset :
    [(0x004, 0), (0x008, 0), (0x00C, 0x01000C4A), (0x010, 0), (0x014, 0), (0x2800, 0), (0x000, 0)].all (fun x =>
      nextIs (hostAccess (.read .w32 x.1) State.reset) fun t => t.busData == some x.2) = true := by decide

/-- V48: the write while BUSY is dropped. -/
theorem test_window_drop :
    nextIs (afterTurns [.host (.write .w32 0 0x04000000), .host (.write .w32 0 0x08000003), .engine] State.reset) (fun t =>
      t.status == 0x00000200 && decide (t.ctx[0] = { mode := .absorb, msg := [], out := 0 }) && t.pc == 1 &&
        nextIs (hostAccess (.write .w32 4 0x00000200) t) fun u => u.status == 0) = true := by decide

/-- V50: mixed widths in BUF. -/
theorem test_window_buf :
    nextIs (hostAccess (.write .w32 0x1000 0x44332211) State.reset) (fun t =>
      t.buf.readBytes 0 4 == some [0x11, 0x22, 0x33, 0x44] &&
        nextIs (hostAccess (.read .w16 0x1002) t) fun u => u.busData == some 0x4433) = true := by decide

/-- V50: a 32-bit read of two entries of COEF. -/
theorem test_window_coef :
    nextIs (afterTurns [.host (.write .w16 0x2002 0xFFFF), .host (.write .w16 0x2000 0x0001), .host (.read .w32 0x2000)]
      State.reset) (fun t => t.busData == some 0xFFFF0001 && t.coef.readCoef? 1 == some 0xFFFF) = true := by decide

/-- V51. -/
theorem test_window_bus_errors :
    hostAccess (.read .w16 0x1001) State.reset = .fault .busError ∧
      hostAccess (.read .w8 0x004) State.reset = .fault .busError ∧
      hostAccess (.read .w32 0x1002) State.reset = .fault .busError := ⟨rfl, rfl, rfl⟩

/-! ### The assembler -/

/-- V39's CONVERT, R142's example with a comment, WIPE.ALL's first word, and refused lines of R110. -/
theorem test_assembler :
    assembleLine "CONVERT 0, 1345, 0x800" = some [0x40000541, 0x44800600] ∧
      assembleLine "XOF.ABSORB c0, 0x000, 3 ; abc" = some [0x08000003] ∧
      assembleLine "XOF.SEED c1, 0" = some [0x15000030] ∧ assembleLine "COMP.ENC.SIG 0" = some [0x4800058D] := by
  decide +kernel
theorem test_assembler_refuses :
    assembleLine "BUF.ZERO 4096, 1" = none ∧ assembleLine "XOF.INIT c4" = none ∧ assembleLine "CT.ENC 0" = none := by
  decide +kernel

/-! ### Witnesses: for every statement with hypotheses, a state and operands that meet them together, with the values at
the ends of their ranges -/

theorem onBuf_wf (a : Nat) (bs : List Byte) : (onBuf a bs).buf.wf = true := wf_writeBytes [] a bs rfl

theorem onBuf_read (a : Nat) (bs : List Byte) : (onBuf a bs).buf.readBytes a bs.length = some bs :=
  readBytes_writeBytes [] a bs rfl

theorem onBuf_read_of (a n : Nat) (bs : List Byte) (h : bs.length = n) : (onBuf a bs).buf.readBytes a n = some bs :=
  h ▸ onBuf_read a bs

/-- The zero vector. -/
def zeros : List Coef := List.replicate 1024 0

theorem zeros_inRange : ∀ x ∈ zeros, coefInRange x = true := by
  intro x hx
  rw [List.eq_of_mem_replicate hx]
  decide

theorem zeros_good : GoodVector zeros := ⟨List.length_replicate, zeros_inRange⟩

theorem zeros_stream : 1152 ≤ (compEncode zeros).length ∧ (compEncode zeros).length ≤ 3072 :=
  compEncode_length_bounds zeros zeros_good.1 zeros_good.2

/-- The reset state with the zero vector in COEF. -/
def onZeros : State := { State.reset with coef := Memory.writeCoefs [] zeros }

theorem onZeros_wf : onZeros.coef.wf = true := wf_writeCoefs [] zeros rfl

theorem onZeros_read : onZeros.coef.readCoefs = some zeros := readCoefs_writeCoefs [] zeros rfl zeros_good.1

/-- A vector with one entry out of range. -/
def tooLarge : List Coef := 2048 :: List.replicate 1023 0

theorem tooLarge_read :
    Memory.readCoefs (Memory.writeCoefs [] tooLarge) = some tooLarge ∧ ∃ x ∈ tooLarge, coefInRange x = false :=
  ⟨readCoefs_writeCoefs [] tooLarge rfl (congrArg (· + 1) List.length_replicate), 2048, List.mem_cons_self, by decide⟩

/-- The reset state with a command accepted. -/
def latched (w : Word) : State := acceptCmd w State.reset

theorem latched_inv (w : Word) : (latched w).Inv :=
  ⟨show ∀ c : CtxId, State.reset.ctx[c].Ok by decide, rfl, rfl, rfl, rfl,
    show statusAccept 0 &&& ~~~statusMask = 0#32 by decide, show (statusErr (statusAccept 0)).toNat < 8 by decide,
    show statusBusy (statusAccept 0) = true by decide, show (0 : Word) &&& ~~~0x00000FFF#32 = 0#32 by decide,
    show 0 ≤ 1 by omega, rfl⟩

theorem witness_ResetTurnSetsResetValues :
    { latched 0x04000000 with script := [.reset, .engine] }.script = .reset :: [.engine] := rfl

theorem witness_EveryStepKeepsTheInvariant : (latched 0x04000000).Inv ∧ ∃ t, step (latched 0x04000000) = .next t :=
  ⟨latched_inv _, _, rfl⟩

theorem witness_CommandsKeepContextInvariants :
    (∃ t, exec (.xofFinal 1) (withCtx 1 .absorb abc 0 State.reset) = .next t) ∧
      ∀ c : CtxId, (withCtx 1 .absorb abc 0 State.reset).ctx[c].Ok := ⟨⟨_, rfl⟩, by decide⟩

theorem witness_DecodeOfEncodeIsTheCommand :
    (Instr.xofAbsorb 3 4095 4095).wellFormed = true ∧ (Instr.compEnc 0 0).wellFormed = true ∧
      Instr.coefZero.wellFormed = true := by decide

theorem witness_EncodeOfDecodeIsTheWord : decode 0x0BFFFFFF = .ok (.xofAbsorb 3 4095 4095) := by decide

theorem witness_DecodeFollowsMatchAndMask :
    decode 0x18000000 = .ok (.xofClear 0) ∧ decode 0x18001000 = .error .reservedField ∧
      decode 0xFC000000 = .error .unassignedOp := by decide

theorem witness_StepRunsTheLatchedCommand :
    (latched 0x84000000).pending = some 0x84000000 ∧ decode 0x84000000 = .ok .coefZero ∧
      (latched 0x84000000).script = [] ∧
      { latched 0x84000000 with script := [.engine] }.script = .engine :: [] ∧
      { latched 0x84000000 with script := [.host (.read .w32 4), .engine] }.script =
        .host (.read .w32 4) :: [.engine] := by decide

theorem witness_IllegalWordsFailWithIllegal :
    (latched 0x1C000000).pending = some 0x1C000000 ∧ IllegalWord 0x1C000000 ∧ IllegalWord 0x00000000 ∧
      IllegalWord 0x04001000 ∧ IllegalWord 0x18000001 ∧ IllegalWord 0x83000000 ∧ IllegalWord 0x84000001 ∧
      ¬ IllegalWord 0x84000000 := by
  refine ⟨by decide, ?_, ?_, ?_, ?_, ?_, ?_, ?_⟩ <;> (unfold IllegalWord; decide)

theorem witness_IdleBlockKeepsAllState : State.reset.pending = none ∧ State.reset.script = [] := by decide

theorem witness_IndexMovesOnByOne :
    (∃ t, execWord 0x04000000 (latched 0x04000000) = .next t) ∧ statusBusy (latched 0x04000000).status = true ∧
      ((latched 0x04000000).pending = some 0x04000000 ∧ (latched 0x04000000).script = [] ∧
        ∃ t, step (latched 0x04000000) = .next t) ∧
      (State.reset.pending = none ∧ ∃ t, step { State.reset with script := [.engine] } = .next t) ∧
      (∃ t, step { State.reset with script := [.host (.write .w32 0x0000 0x04000000)] } = .next t) ∧
      ∃ t, step { latched 0x04000000 with script := [.reset] } = .next t :=
  ⟨⟨_, rfl⟩, by decide, ⟨rfl, rfl, _, rfl⟩, ⟨rfl, _, rfl⟩, ⟨_, rfl⟩, _, rfl⟩

theorem witness_FailedCommandsChangeOnlyStatus :
    ∃ t, execWord 0x0C000000 State.reset = .next t ∧ statusErr t.status ≠ 0 := ⟨_, rfl, by decide⟩

theorem witness_SuccessfulCommandsReportACount :
    ∃ t, execWord 0x04000000 State.reset = .next t ∧ statusErr t.status = 0 := ⟨_, rfl, by decide⟩

theorem witness_CommandsTouchOnlyTheirContext :
    (ctxOf (.xofInit 0) ≠ some 3 ∧ ∃ t, exec (.xofInit 0) State.reset = .next t) ∧
      ctxOf .coefZero ≠ some 0 ∧ ∃ t, exec .coefZero State.reset = .next t := ⟨⟨by decide, _, rfl⟩, by decide, _, rfl⟩

theorem witness_XofInitStartsAnEmptyMessage :
    (fieldOp 0x07000000 = 0x01 ∧ fieldAddr 0x07000000 = 0 ∧ fieldLen 0x07000000 = 0) ∧
      (fieldOp 0x04001000 = 0x01 ∧ fieldAddr 0x04001000 ≠ 0) ∧ fieldOp 0x04000001 = 0x01 ∧ fieldLen 0x04000001 ≠ 0 := by
  decide

theorem witness_XofAbsorbAppendsTheRegion :
    (4095 + 1 ≤ 4096 ∧ (withCtx 0 .absorb [] 0 (onBuf 4095 [0x61])).ctx[(0 : CtxId)].mode = .absorb ∧
      (withCtx 0 .absorb [] 0 (onBuf 4095 [0x61])).buf.readBytes 4095 1 = some [0x61]) ∧ 4096 < 4095 + 2 ∧
      1 + 4095 ≤ 4096 ∧ State.reset.ctx[(0 : CtxId)].mode ≠ .absorb := by decide

theorem witness_XofFinalEntersOutputMode :
    (withCtx 3 .absorb abc 0 State.reset).ctx[(3 : CtxId)].mode = .absorb ∧ State.reset.ctx[(3 : CtxId)].mode ≠ .absorb ∧
      (fieldOp 0x0F000000 = 0x03 ∧ fieldAddr 0x0F000000 = 0 ∧ fieldLen 0x0F000000 = 0) ∧
      fieldOp 0x0C000001 = 0x03 ∧ fieldLen 0x0C000001 ≠ 0 := by decide

theorem witness_XofSqueezeWritesTheNextBytes :
    1 + 4095 ≤ 4096 ∧ (withCtx 2 .squeeze abc 7 State.reset).ctx[(2 : CtxId)].mode = .squeeze ∧
      (withCtx 2 .squeeze abc 7 State.reset).buf.wf = true ∧ 4096 < 4095 + 2 ∧
      State.reset.ctx[(2 : CtxId)].mode ≠ .squeeze := by decide

theorem witness_XofSeedTakesFortyEightBytes :
    4048 + 48 ≤ 4096 ∧ (onBuf 4048 seed48).buf.readBytes 4048 48 = some seed48 ∧ 47 ≠ 48 ∧ 4096 < 4049 + 48 :=
  ⟨by omega, onBuf_read 4048 seed48, by omega, by omega⟩

theorem witness_XofClearZeroizesTheContext :
    (fieldOp 0x19000000 = 0x06 ∧ fieldAddr 0x19000000 = 0 ∧ fieldLen 0x19000000 = 0) ∧
      (fieldOp 0x18001000 = 0x06 ∧ fieldAddr 0x18001000 ≠ 0) ∧ fieldOp 0x18000001 = 0x06 ∧ fieldLen 0x18000001 ≠ 0 := by
  decide

theorem witness_SplitAbsorbIsOneAbsorb :
    1 + 2 < 4096 ∧ (withCtx 1 .absorb [] 0 (onBuf 4093 abc)).ctx[(1 : CtxId)].mode = .absorb ∧
      (withCtx 1 .absorb [] 0 (onBuf 4093 abc)).buf.readBytes 4093 1 = some [0x61] ∧
      (withCtx 1 .absorb [] 0 (onBuf 4093 abc)).buf.readBytes 4094 2 = some [0x62, 0x63] ∧ 4093 + (1 + 2) ≤ 4096 ∧
      (withCtx 1 .absorb [] 0 (onBuf 4093 abc)).buf.readBytes 4093 (1 + 2) = some ([0x61] ++ [0x62, 0x63]) := by decide

theorem witness_SplitSqueezeIsOneSqueeze :
    4094 + 1 < 4096 ∧ 1 + 4094 + 1 ≤ 4096 ∧ (withCtx 0 .squeeze abc 0 State.reset).ctx[(0 : CtxId)].mode = .squeeze ∧
      (withCtx 0 .squeeze abc 0 State.reset).buf.wf = true := by decide

theorem witness_EqualContextsPutOutEqualBytes :
    4095 < 4096 ∧ 1 + 4095 ≤ 4096 ∧ 0 + 4095 ≤ 4096 ∧
      (withCtx 0 .squeeze abc 9 State.reset).ctx[(0 : CtxId)].mode = .squeeze ∧
      (withCtx 0 .squeeze abc 9 State.reset).ctx[(0 : CtxId)] =
        (withCtx 3 .squeeze abc 9 (onBuf 5 abc)).ctx[(3 : CtxId)] ∧
      (withCtx 0 .squeeze abc 9 State.reset).buf.wf = true ∧ (withCtx 3 .squeeze abc 9 (onBuf 5 abc)).buf.wf = true := by
  decide

theorem witness_SeedIsInitAbsorbFinal :
    4048 + 48 ≤ 4096 ∧ (onBuf 4048 seed48).buf.readBytes 4048 48 = some seed48 := ⟨by omega, onBuf_read 4048 seed48⟩

theorem witness_SqueezedStreamIsShake :
    (⟨.squeeze, abc, 0⟩ : XofCtx).mode = .squeeze ∧ (⟨.squeeze, abc, 0⟩ : XofCtx).out = 0 := ⟨rfl, rfl⟩

theorem witness_SpongeFollowsTheCommands :
    (4095 + 1 ≤ 4096 ∧ (withCtx 0 .absorb [] 0 (onBuf 4095 [0x61])).ctx[(0 : CtxId)].mode = .absorb ∧
      (withCtx 0 .absorb [] 0 (onBuf 4095 [0x61])).buf.readBytes 4095 1 = some [0x61]) ∧
      ((withCtx 0 .squeeze [] 136 State.reset).ctx[(0 : CtxId)].mode = .squeeze ∧
        (withCtx 0 .squeeze [] 136 State.reset).buf.wf = true) ∧
      (onBuf 0 seed48).buf.readBytes 0 48 = some seed48 := ⟨by decide, by decide, onBuf_read 0 seed48⟩

theorem witness_ShakeOutputsArePrefixes : 0 ≤ 137 := by omega

/-- The stream of the zero vector in BUF: accepted. -/
def onStream : State := onBuf 0 (compEncode zeros)

theorem onStream_read : onStream.buf.readBytes 0 (compEncode zeros).length = some (compEncode zeros) :=
  onBuf_read 0 _

theorem witness_CompDecAcceptsExactlyEncodedVectors :
    (0 + (compEncode zeros).length ≤ 4096 ∧ onStream.buf.readBytes 0 (compEncode zeros).length = some (compEncode zeros) ∧
      GoodVector zeros ∧ onStream.coef.wf = true) ∧
      (4096 + 0 ≤ 4096 ∧ State.reset.buf.readBytes 4096 0 = some [] ∧
        (∀ v, GoodVector v → compEncode v ≠ []) ∧ 0 < 1152) ∧
      (∃ bs, (onBuf 0 (List.replicate 1151 0)).buf.readBytes 0 1151 = some bs ∧ 1151 < 1152) ∧
      (∃ bs, (onBuf 0 (List.replicate 3073 0)).buf.readBytes 0 3073 = some bs ∧ 3072 < 3073) ∧ 4096 < 4095 + 2 ∧
      (fieldOp 0x40000480 = 0x10 ∧ fieldCtx 0x40000480 = 0) ∧ fieldOp 0x43000480 = 0x10 ∧ fieldCtx 0x43000480 ≠ 0 := by
  have h := zeros_stream
  refine ⟨⟨by omega, onStream_read, zeros_good, rfl⟩, ⟨by omega, rfl, ?_, by omega⟩, ⟨_, onBuf_read_of 0 1151 _ List.length_replicate, by omega⟩,
    ⟨_, onBuf_read_of 0 3073 _ List.length_replicate, by omega⟩, by omega, by decide, by decide⟩
  intro v hv e
  have := (compEncode_length_bounds v hv.1 hv.2).1
  rw [e] at this
  simp at this

theorem witness_CtEncWritesTheFixedWidthStream :
    (2560 + 1536 ≤ 4096 ∧ onZeros.coef.readCoefs = some zeros ∧ (∀ x ∈ zeros, coefInRange x = true) ∧
      onZeros.buf.wf = true) ∧
      (∃ s : State, s.coef.readCoefs = some tooLarge ∧ ∃ x ∈ tooLarge, coefInRange x = false) ∧ 0 + 1535 ≤ 4096 ∧
      1535 < 1536 ∧ 4096 < 2561 + 1536 ∧ (fieldOp 0x44000600 = 0x11 ∧ fieldCtx 0x44000600 = 0) ∧
      fieldOp 0x45000600 = 0x11 ∧ fieldCtx 0x45000600 ≠ 0 :=
  ⟨⟨by omega, onZeros_read, zeros_inRange, rfl⟩,
    ⟨{ State.reset with coef := Memory.writeCoefs [] tooLarge }, tooLarge_read.1, tooLarge_read.2⟩, by omega, by omega,
    by omega, by decide, by decide⟩

theorem witness_CompEncWritesTheCompressedStream :
    (1024 + 3072 ≤ 4096 ∧ onZeros.coef.readCoefs = some zeros ∧ (∀ x ∈ zeros, coefInRange x = true) ∧
      (compEncode zeros).length ≤ 3072 ∧ onZeros.buf.wf = true) ∧
      (∃ s : State, s.coef.readCoefs = some tooLarge ∧ ∃ x ∈ tooLarge, coefInRange x = false) ∧
      (0 + 1151 ≤ 4096 ∧ 1151 < (compEncode zeros).length) ∧ 4096 < 1025 + 3072 ∧
      (fieldOp 0x48000600 = 0x12 ∧ fieldCtx 0x48000600 = 0) ∧ fieldOp 0x49000600 = 0x12 ∧ fieldCtx 0x49000600 ≠ 0 := by
  have h := zeros_stream
  exact ⟨⟨by omega, onZeros_read, zeros_inRange, h.2, rfl⟩,
    ⟨{ State.reset with coef := Memory.writeCoefs [] tooLarge }, tooLarge_read.1, tooLarge_read.2⟩,
    ⟨by omega, by omega⟩, by omega, by decide, by decide⟩

/-- 1536 bytes of zeros, and the same with 0x800 in slot 0. -/
def ctZeros : List Byte := List.replicate 1536 0
def ctBad : List Byte := 0x80 :: List.replicate 1535 0

theorem witness_CtDecSignExtendsTheSlots :
    (2560 + 1536 ≤ 4096 ∧ (onBuf 2560 ctZeros).buf.readBytes 2560 1536 = some ctZeros ∧
      (∀ u < 1024, ctSlot ctZeros u ≠ 0x800) ∧ (onBuf 2560 ctZeros).coef.wf = true) ∧
      ((onBuf 0 ctBad).buf.readBytes 0 1536 = some ctBad ∧ ∃ u < 1024, ctSlot ctBad u = 0x800) ∧ 4096 < 2561 + 1536 ∧
      (0 + 1535 ≤ 4096 ∧ 1535 ≠ 1536) ∧ (2559 + 1537 ≤ 4096 ∧ 1537 ≠ 1536) ∧
      (fieldOp 0x4C000600 = 0x13 ∧ fieldCtx 0x4C000600 = 0) ∧ fieldOp 0x4D000600 = 0x13 ∧ fieldCtx 0x4D000600 ≠ 0 := by
  have hz : bitsOfBytes ctZeros = List.replicate 12288 false := by
    rw [bitsOfBytes, ctZeros, List.flatMap_replicate, show bitsOf (0 : Byte) = List.replicate 8 false from rfl,
      List.flatten_replicate_replicate]
  have hslot : ∀ u < 1024, ctSlot ctZeros u = 0 := by
    intro u hu
    rw [ctSlot, hz, List.drop_replicate, List.take_replicate, show min 12 (12288 - 12 * u) = 12 by omega]
    rfl
  refine ⟨⟨by omega, onBuf_read_of 2560 1536 ctZeros List.length_replicate, ?_, rfl⟩, ⟨onBuf_read_of 0 1536 ctBad (congrArg (· + 1) List.length_replicate), 0, by omega, ?_⟩, by omega,
    ⟨by omega, by omega⟩, ⟨by omega, by omega⟩, by decide, by decide⟩
  · intro u hu h
    rw [hslot u hu] at h
    exact absurd h (by decide)
  · rw [ctSlot, ctBad, bitsOfBytes_cons, List.replicate_succ, bitsOfBytes_cons]
    rfl

theorem witness_CompressedStreamLayout :
    GoodVector zeros ∧ coefInRange 2047 = true ∧ coefInRange 0xF801 = true ∧ (0 < 7 ∧ 6 < 7) ∧
      14 < (2047 : Coef).toInt.natAbs / 128 := ⟨zeros_good, by decide, by decide, by omega, by decide⟩

theorem witness_ConstantTimeStreamLayout : GoodVector zeros ∧ 0 < zeros.length ∧ 1023 < zeros.length :=
  ⟨zeros_good, by rw [zeros_good.1]; decide, by rw [zeros_good.1]; decide⟩

theorem witness_BothFormatsHoldTheSameVectors : zeros.length = 1024 := zeros_good.1

theorem witness_CompEncThenCompDecRestoresCoef :
    3072 < 4096 ∧ 1024 + 3072 ≤ 4096 ∧ onZeros.buf.wf = true ∧ Memory.wf [] = true ∧
      onZeros.coef.readCoefs = some zeros ∧ (∀ x ∈ zeros, coefInRange x = true) ∧ (compEncode zeros).length ≤ 3072 :=
  ⟨by omega, by omega, rfl, rfl, onZeros_read, zeros_inRange, zeros_stream.2⟩

theorem witness_CtEncThenCtDecRestoresCoef :
    1536 ≤ 1536 ∧ 2560 + 1536 ≤ 4096 ∧ onZeros.buf.wf = true ∧ Memory.wf [] = true ∧
      onZeros.coef.readCoefs = some zeros ∧ ∀ x ∈ zeros, coefInRange x = true :=
  ⟨by omega, by omega, rfl, rfl, onZeros_read, zeros_inRange⟩

/-- COMP.DEC accepts the stream of the zero vector. -/
theorem onStream_compDec :
    exec (.compDec 0 (compEncode zeros).length) onStream =
      done (compEncode zeros).length { onStream with coef := onStream.coef.writeCoefs zeros } := by
  have h := zeros_stream
  exact exec_of_effect ⟨by omega, compEncode zeros, zeros, onStream_read, by
    have := compDecode_compEncode zeros zeros_inRange
    rwa [zeros_good.1] at this, rfl, rfl⟩

theorem witness_CompDecThenCompEncRewritesTheStream :
    onStream.buf.wf = true ∧ onStream.coef.wf = true ∧
      onStream.buf.readBytes 0 (compEncode zeros).length = some (compEncode zeros) ∧
      (∃ t, exec (.compDec 0 (compEncode zeros).length) onStream = .next t ∧ statusErr t.status = 0) ∧
      (compEncode zeros).length ≤ 3072 ∧ 1024 + 3072 ≤ 4096 :=
  ⟨onBuf_wf _ _, rfl, onStream_read, ⟨_, onStream_compDec, by decide⟩, zeros_stream.2, by omega⟩

theorem witness_CtDecThenCtEncRewritesTheStream :
    ∃ (s t : State) (bs : List Byte), s.buf.wf = true ∧ s.coef.wf = true ∧ s.buf.readBytes 0 1536 = some bs ∧
      exec (.ctDec 0 1536) s = .next t ∧ statusErr t.status = 0 ∧ 2560 + 1536 ≤ 4096 := by
  have hl := ctEncode_length zeros zeros_good.1
  have hr := onBuf_read 0 (ctEncode zeros)
  rw [hl] at hr
  exact ⟨onBuf 0 (ctEncode zeros), _, ctEncode zeros, onBuf_wf _ _, rfl, hr,
    exec_of_effect (i := .ctDec 0 1536) (r := 1536)
      ⟨by omega, rfl, ctEncode zeros, zeros, hr, ctDecode_ctEncode zeros zeros_good.1 zeros_inRange, rfl, rfl⟩,
    by decide, by omega⟩

theorem witness_ConvertReencodesTheVector :
    (onStream.buf.wf = true ∧ onStream.coef.wf = true ∧ (compEncode zeros).length < 4096 ∧
      0 + (compEncode zeros).length ≤ 4096 ∧
      onStream.buf.readBytes 0 (compEncode zeros).length = some (compEncode zeros) ∧ GoodVector zeros) ∧
      2560 + 1536 ≤ 4096 ∧ 4096 < 2561 + 1536 ∧
      (∃ t u, exec (.compDec 0 (compEncode zeros).length) onStream = .next t ∧ statusErr t.status = 0 ∧
        exec (.ctEnc 2561 1536) t = .next u) ∧
      ∃ t, exec (.compDec 4096 0) State.reset = .next t ∧ statusErr t.status ≠ 0 := by
  have h := zeros_stream
  exact ⟨⟨onBuf_wf _ _, rfl, by omega, by omega, onStream_read, zeros_good⟩, by omega, by omega,
    ⟨_, _, onStream_compDec, by decide, rfl⟩, ⟨_, rfl, by decide⟩⟩

theorem witness_BufZeroZeroesTheRegion :
    1 + 4095 ≤ 4096 ∧ State.reset.buf.wf = true ∧ 4096 < 4095 + 2 ∧
      (fieldOp 0x80FFF001 = 0x20 ∧ fieldCtx 0x80FFF001 = 0) ∧ fieldOp 0x81000000 = 0x20 ∧ fieldCtx 0x81000000 ≠ 0 := by
  decide

theorem witness_CoefZeroZeroesEveryEntry :
    State.reset.coef.wf = true ∧
      (fieldOp 0x84000000 = 0x21 ∧ fieldCtx 0x84000000 = 0 ∧ fieldAddr 0x84000000 = 0 ∧ fieldLen 0x84000000 = 0) ∧
      (fieldOp 0x85000000 = 0x21 ∧ fieldCtx 0x85000000 ≠ 0) ∧ (fieldOp 0x84001000 = 0x21 ∧ fieldAddr 0x84001000 ≠ 0) ∧
      fieldOp 0x84000001 = 0x21 ∧ fieldLen 0x84000001 ≠ 0 := by decide

theorem witness_WipeAllLeavesAZeroBlock : (latched 0x0C000000).Inv := latched_inv _

theorem witness_UnwrittenStorageFaults :
    (4095 + 1 ≤ 4096 ∧ (withCtx 0 .absorb [] 0 State.reset).ctx[(0 : CtxId)].mode = .absorb ∧
      ∃ k < 1, (withCtx 0 .absorb [] 0 State.reset).buf.read? (4095 + k) = none) ∧
      (4048 + 48 ≤ 4096 ∧ ∃ k < 48, (onBuf 4048 (seed48.take 47)).buf.read? (4048 + k) = none) ∧
      (∃ k < 1536, State.reset.buf.read? (2560 + k) = none) ∧ CoefUnwritten State.reset ∧
      (StorageAccess .w32 4092 ∧ statusBusy (onBuf 4092 abc).status = false ∧ 4092 + Width.w32.bytes ≤ 4096 ∧
        ∃ k < Width.w32.bytes, (onBuf 4092 abc).buf.read? (4092 + k) = none) ∧
      StorageAccess .w8 2047 ∧ 2047 + Width.w8.bytes ≤ 2048 ∧ ∃ k < Width.w8.bytes, State.reset.coef.read? (2047 + k) = none :=
  ⟨⟨by omega, rfl, 0, by omega, rfl⟩, ⟨by omega, 47, by omega, by decide⟩, ⟨1535, by omega, rfl⟩, ⟨1023, by simp, rfl⟩,
    ⟨⟨by decide, by decide⟩, by decide, by decide, 3, by decide, by decide⟩, ⟨by decide, by decide⟩, by decide, 0, by decide,
    rfl⟩

theorem witness_CmdWriteIsAcceptedOrDropped :
    statusBusy State.reset.status = false ∧ statusBusy (latched 0x04000000).status = true := by decide

theorem witness_ReservedOffsetsReadZeroAndIgnoreWrites :
    (0x0014 ≤ 0x0014 ∧ 0x0FF8 + Width.w64.bytes ≤ 0x1000) ∧ 0x2800 ≤ 0x2800 ∧ 0x3FFF + Width.w8.bytes ≤ 0x4000 := by decide

theorem witness_WrongWidthOrAlignmentIsABusError :
    (0x0010 < 0x0014 ∧ ¬(Width.w16 = .w32 ∧ 0x0010 % 4 = 0) ∧ (Width.w32 = .w32 ∧ 0x0010 % 4 = 0)) ∧
      (0x1000 ≤ 0x27FF ∧ 0x27FF < 0x2800 ∧ ¬ StorageAccess .w16 0x27FF ∧ StorageAccess .w8 0x27FF) ∧
      ¬ StorageAccess .w64 0x1000 ∧ StorageAccess .w32 0x1000 := by
  unfold StorageAccess
  decide

theorem witness_StorageAccessWhileBusyIsRefused :
    0x1000 ≤ 0x1000 ∧ 0x27FF < 0x2800 ∧ StorageAccess .w32 0x1000 ∧ StorageAccess .w8 0x27FF ∧
      statusBusy (latched 0x04000000).status = true := by
  unfold StorageAccess
  decide

theorem witness_BufWindowIsLittleEndian :
    4092 + Width.w32.bytes ≤ 4096 ∧ StorageAccess .w32 4092 ∧ statusBusy (onBuf 4092 (abc ++ abc)).status = false ∧
      (onBuf 4092 [1, 2, 3, 4]).buf.wf = true ∧
      (onBuf 4092 [1, 2, 3, 4]).buf.readBytes 4092 Width.w32.bytes = some [1, 2, 3, 4] := by
  unfold StorageAccess
  decide

theorem witness_CoefWindowHoldsTheEntries :
    (2044 + Width.w32.bytes ≤ 2048 ∧ StorageAccess .w32 2044 ∧
      ∃ bs, onZeros.coef.readBytes 2044 Width.w32.bytes = some bs) ∧
    (2047 + Width.w8.bytes ≤ 2048 ∧ StorageAccess .w8 2047) ∧ 1023 < 1024 ∧ 1022 < 1024 ∧ statusBusy onZeros.status = false ∧ onZeros.coef.wf = true ∧
      onZeros.coef.readCoef? 1023 = some 0 ∧ 1022 = 2 * 511 ∧ onZeros.coef.readCoef? (2 * 511) = some 0 ∧
      onZeros.coef.readCoef? (2 * 511 + 1) = some 0 := by
  have h : ∀ i, i < 1024 → onZeros.coef.readCoef? i = some 0 := by
    intro i hi
    rw [(readCoef?_of_readCoefs _ _ onZeros_read).2 i hi, zeros, List.getElem?_replicate, if_pos hi]
  refine ⟨⟨by decide, ⟨by decide, by decide⟩, ?_⟩, ⟨by decide, by decide, by decide⟩, by omega, by omega, by decide, onZeros_wf,
    h _ (by omega), by omega, h _ (by omega), h _ (by omega)⟩
  refine Option.ne_none_iff_exists'.1 fun e => ?_
  obtain ⟨k, hk, hn⟩ := (readBytes_eq_none_iff _ _ _).1 e
  have hk4 : k < 4 := hk
  have h0 := (readCoef?_eq_some_iff _ _ _).1 (h 1022 (by omega))
  have h1 := (readCoef?_eq_some_iff _ _ _).1 (h 1023 (by omega))
  interval_cases k <;> simp_all

theorem witness_HostAccessesHaveNoOtherEffect :
    (∃ t, hostAccess (.read .w32 0x0004) State.reset = .next t) ∧
      (∃ t, hostAccess (.write .w8 0x1FFF 0x55) State.reset = .next t) ∧
      ∃ t, hostAccess (.write .w32 0x0000 0x04000000) State.reset = .next t := ⟨⟨_, rfl⟩, ⟨_, rfl⟩, _, rfl⟩

theorem witness_AssemblerEmitsOnlyLegalWords : assembleLine "COEF.ZERO" = some [0x84000000] := by decide +kernel

end Sys2Proof.Tests
end

/-! SUPPORT. Commands and contexts: every command keeps the invariants of the contexts (10_state.md R33) and neither writes
nor reads a context it does not name (R34). -/

namespace Sys2Proof.Machine

/-! ### The invariants of a context -/

theorem reset_ctx (c : CtxId) : State.reset.ctx[c] = XofCtx.cleared := by simp [State.reset]

theorem XofCtx.cleared_ok : XofCtx.cleared.Ok := ⟨fun _ => ⟨rfl, rfl⟩, fun _ => rfl⟩

theorem XofCtx.ok_of_absorb {x : XofCtx} (hm : x.mode = .absorb) (ho : x.out = 0) : x.Ok := by
  simp [XofCtx.Ok, hm, ho]

/-- R33 asks nothing of a context in output mode. -/
theorem XofCtx.ok_of_squeeze {x : XofCtx} (hm : x.mode = .squeeze) : x.Ok := by simp [XofCtx.Ok, hm]

theorem setCtx_ctxOk {s : State} (hs : ∀ c : CtxId, s.ctx[c].Ok) (c : CtxId) {x : XofCtx} (hx : x.Ok) (d : CtxId) :
    (s.setCtx c x).ctx[d].Ok := by
  by_cases hd : d = c
  · rwa [hd, setCtx_ctx_self]
  · rw [setCtx_ctx_other s c d x hd]
    exact hs d

/-- An XOF command sets its one context to one that meets R33; the other commands leave all contexts as they were. -/
theorem Effect.keeps_ctxOk {i : Instr} {s u : State} {r : Nat} (h : Effect i s u r) (hs : ∀ c : CtxId, s.ctx[c].Ok) :
    ∀ c : CtxId, u.ctx[c].Ok := by
  cases i with
  | xofInit c => obtain ⟨rfl, -⟩ := h; exact setCtx_ctxOk hs c (XofCtx.ok_of_absorb rfl rfl)
  | xofAbsorb c a l =>
    obtain ⟨-, hm, bs, -, rfl, -⟩ := h
    have hout : s.ctx[c].out = 0 := (hs c).2 hm
    exact setCtx_ctxOk hs c (XofCtx.ok_of_absorb hm hout)
  | xofFinal c => obtain ⟨-, rfl, -⟩ := h; exact setCtx_ctxOk hs c (XofCtx.ok_of_squeeze rfl)
  | xofSqueeze c a l => obtain ⟨-, hm, rfl, -⟩ := h; exact setCtx_ctxOk hs c (XofCtx.ok_of_squeeze hm)
  | xofSeed c a l => obtain ⟨-, -, bs, -, rfl, -⟩ := h; exact setCtx_ctxOk hs c (XofCtx.ok_of_squeeze rfl)
  | xofClear c => obtain ⟨rfl, -⟩ := h; exact setCtx_ctxOk hs c XofCtx.cleared_ok
  | compDec a l => obtain ⟨-, -, -, -, -, rfl, -⟩ := h; exact hs
  | ctEnc a l => obtain ⟨-, -, -, -, -, rfl, -⟩ := h; exact hs
  | compEnc a l => obtain ⟨-, -, -, -, -, rfl, -⟩ := h; exact hs
  | ctDec a l => obtain ⟨-, -, -, -, -, -, rfl, -⟩ := h; exact hs
  | bufZero a l => obtain ⟨-, rfl, -⟩ := h; exact hs
  | coefZero => obtain ⟨rfl, -⟩ := h; exact hs

theorem exec_keeps_ctxOk {i : Instr} {s t : State} (h : exec i s = .next t) (hs : ∀ c : CtxId, s.ctx[c].Ok) :
    ∀ c : CtxId, t.ctx[c].Ok := by
  obtain ⟨e, -, rfl⟩ | ⟨u, r, heff, rfl⟩ := exec_next_cases i s t h
  · exact hs
  · exact heff.keeps_ctxOk hs

/-- Settles O5: a failed command changes no context, a successful one sets at most one, to a context that meets R33. -/
theorem commandsKeepContextInvariants : Obligations.CommandsKeepContextInvariants := by
  refine ⟨fun c => ?_, fun i s t h hs => exec_keeps_ctxOk h hs⟩
  rw [reset_ctx]
  exact XofCtx.cleared_ok

/-! ### The contexts a command does not name -/

theorem exec_otherCtx {i : Instr} {s t : State} (h : exec i s = .next t) (d : CtxId) (hd : ctxOf i ≠ some d) :
    t.ctx[d] = s.ctx[d] := by
  obtain ⟨e, -, rfl⟩ | ⟨u, r, heff, rfl⟩ := exec_next_cases i s t h
  · rfl
  · exact heff.otherCtx d hd

theorem setCtx_comm (s : State) {c d : CtxId} (h : c ≠ d) (x y : XofCtx) :
    (s.setCtx d x).setCtx c y = (s.setCtx c y).setCtx d x := by
  have hset : (s.ctx.set d x).set c y = (s.ctx.set c y).set d x :=
    Vector.set_comm _ _ fun e => h (Fin.ext e.symm)
  rw [State.setCtx, State.setCtx, State.setCtx, State.setCtx, hset]

theorem raiseErr_setCtx (e : StatusCode) (s : State) (d : CtxId) (x : XofCtx) :
    raiseErr e (s.setCtx d x) = mapNext (·.setCtx d x) (raiseErr e s) := rfl

theorem done_setCtx (r : Nat) (s : State) (d : CtxId) (x : XofCtx) :
    done r (s.setCtx d x) = mapNext (·.setCtx d x) (done r s) := rfl

/-! A command's meaning on `s.setCtx d x`, for a context `d` it does not name: the same checks and reads as on `s`, and each
way it ends differs in context `d` alone. -/

section
variable (s : State) {c d : CtxId} (x : XofCtx) (a l : Nat)

theorem execXofInit_setCtx (h : c ≠ d) :
    execXofInit c (s.setCtx d x) = mapNext (·.setCtx d x) (execXofInit c s) := by
  rw [execXofInit, setCtx_comm s h, done_setCtx, execXofInit]

theorem execXofAbsorb_setCtx (h : c ≠ d) :
    execXofAbsorb c a l (s.setCtx d x) = mapNext (·.setCtx d x) (execXofAbsorb c a l s) := by
  simp only [execXofAbsorb, setCtx_buf, setCtx_ctx_other s d c x h, raiseErr_setCtx, apply_ite (mapNext _)]
  cases s.buf.readBytes a l with
  | none => rfl
  | some bs => simp only [setCtx_comm s h, done_setCtx]

theorem execXofFinal_setCtx (h : c ≠ d) :
    execXofFinal c (s.setCtx d x) = mapNext (·.setCtx d x) (execXofFinal c s) := by
  simp only [execXofFinal, setCtx_ctx_other s d c x h, setCtx_comm s h, raiseErr_setCtx, done_setCtx,
    apply_ite (mapNext _)]

theorem execXofSqueeze_setCtx (h : c ≠ d) :
    execXofSqueeze c a l (s.setCtx d x) = mapNext (·.setCtx d x) (execXofSqueeze c a l s) := by
  simp only [execXofSqueeze, setCtx_buf, setCtx_ctx_other s d c x h, setCtx_comm s h, raiseErr_setCtx,
    apply_ite (mapNext _)]
  rfl

theorem execXofSeed_setCtx (h : c ≠ d) :
    execXofSeed c a l (s.setCtx d x) = mapNext (·.setCtx d x) (execXofSeed c a l s) := by
  simp only [execXofSeed, setCtx_buf, raiseErr_setCtx, apply_ite (mapNext _)]
  cases s.buf.readBytes a Config.seedLen with
  | none => rfl
  | some bs => simp only [setCtx_comm s h, done_setCtx]

theorem execXofClear_setCtx (h : c ≠ d) :
    execXofClear c (s.setCtx d x) = mapNext (·.setCtx d x) (execXofClear c s) := by
  rw [execXofClear, setCtx_comm s h, done_setCtx, execXofClear]

theorem execCompDec_setCtx :
    execCompDec a l (s.setCtx d x) = mapNext (·.setCtx d x) (execCompDec a l s) := by
  simp only [execCompDec, setCtx_buf, setCtx_coef, raiseErr_setCtx, apply_ite (mapNext _)]
  cases s.buf.readBytes a l with
  | none => rfl
  | some bs =>
    dsimp only
    cases compDecode Config.n bs <;> rfl

theorem execCtEnc_setCtx :
    execCtEnc a l (s.setCtx d x) = mapNext (·.setCtx d x) (execCtEnc a l s) := by
  simp only [execCtEnc, setCtx_buf, setCtx_coef, raiseErr_setCtx, apply_ite (mapNext _)]
  cases s.coef.readCoefs with
  | none => rfl
  | some v =>
    simp only [apply_ite (mapNext _)]
    rfl

theorem execCompEnc_setCtx :
    execCompEnc a l (s.setCtx d x) = mapNext (·.setCtx d x) (execCompEnc a l s) := by
  simp only [execCompEnc, setCtx_buf, setCtx_coef, raiseErr_setCtx, apply_ite (mapNext _)]
  cases s.coef.readCoefs with
  | none => rfl
  | some v =>
    simp only [apply_ite (mapNext _)]
    rfl

theorem execCtDec_setCtx :
    execCtDec a l (s.setCtx d x) = mapNext (·.setCtx d x) (execCtDec a l s) := by
  simp only [execCtDec, setCtx_buf, setCtx_coef, raiseErr_setCtx, apply_ite (mapNext _)]
  cases s.buf.readBytes a Config.ctLen with
  | none => rfl
  | some bs =>
    dsimp only
    cases ctDecode bs <;> rfl

theorem execBufZero_setCtx :
    execBufZero a l (s.setCtx d x) = mapNext (·.setCtx d x) (execBufZero a l s) := by
  simp only [execBufZero, raiseErr_setCtx, apply_ite (mapNext _)]
  rfl

theorem execCoefZero_setCtx :
    execCoefZero (s.setCtx d x) = mapNext (·.setCtx d x) (execCoefZero s) := rfl

end

theorem exec_setCtx (i : Instr) (s : State) (d : CtxId) (hd : ctxOf i ≠ some d) (x : XofCtx) :
    exec i (s.setCtx d x) = mapNext (·.setCtx d x) (exec i s) := by
  have hne : ∀ c, some c ≠ some d → c ≠ d := fun c h e => h (congrArg some e)
  cases i with
  | xofInit c => exact execXofInit_setCtx s x (hne c hd)
  | xofAbsorb c a l => exact execXofAbsorb_setCtx s x a l (hne c hd)
  | xofFinal c => exact execXofFinal_setCtx s x (hne c hd)
  | xofSqueeze c a l => exact execXofSqueeze_setCtx s x a l (hne c hd)
  | xofSeed c a l => exact execXofSeed_setCtx s x a l (hne c hd)
  | xofClear c => exact execXofClear_setCtx s x (hne c hd)
  | compDec a l => exact execCompDec_setCtx s x a l
  | ctEnc a l => exact execCtEnc_setCtx s x a l
  | compEnc a l => exact execCompEnc_setCtx s x a l
  | ctDec a l => exact execCtDec_setCtx s x a l
  | bufZero a l => exact execBufZero_setCtx s x a l
  | coefZero => exact execCoefZero_setCtx s x

/-- Settles O16: no command writes a context it does not name (`exec_otherCtx`) or reads one (`exec_setCtx`). -/
theorem commandsTouchOnlyTheirContext : Obligations.CommandsTouchOnlyTheirContext :=
  fun i s d hd => ⟨fun _ h => exec_otherCtx h d hd, exec_setCtx i s d hd⟩

end Sys2Proof.Machine

/-! The host's window: where an access goes (`place`) fixes how it ends (20_memory.md R77). -/

namespace Sys2Proof.Machine

section
variable {w : Width} {o : Nat} {f : Fault} {r : Reg} {p : Place} (v : Word) (s : State)

theorem hostAccess_of_place_error (h : place w o = .error f) :
    hostAccess (.read w o) s = .fault f ∧ hostAccess (.write w o v) s = .fault f := by
  simp only [hostAccess, hostRead, hostWrite, h, and_self]

theorem hostAccess_of_place_reg (h : place w o = .ok (.reg r)) :
    hostAccess (.read w o) s = answerRead (readReg r s) s ∧
      hostAccess (.write w o v) s = .next (writeReg r v s) := by
  simp only [hostAccess, hostRead, hostWrite, h, and_self]

/-- The only fault of a storage read is the storage's own, for unwritten bytes (10_state.md R48). -/
theorem readStorage_ne_fault {m : Memory} {g : Fault} {a : Nat} (h : f ≠ g) : readStorage m f w a s ≠ .fault g := by
  intro e
  rw [readStorage] at e
  split at e
  · cases e
  · split at e
    · exact h (Host.Outcome.fault.inj e)
    · cases e

theorem hostRead_ne_busError_of_place_ok (h : place w o = .ok p) : hostAccess (.read w o) s ≠ .fault .busError := by
  simp only [hostAccess, hostRead, h]
  cases p with
  | reg r => nofun
  | buf a => exact readStorage_ne_fault s nofun
  | coef a => exact readStorage_ne_fault s nofun
  | reserved => nofun

theorem hostWrite_ne_busError_of_place_ok (h : place w o = .ok p) : hostAccess (.write w o v) s ≠ .fault .busError := by
  simp only [hostAccess, hostWrite, h]
  cases p with
  | reg r => nofun
  | buf a => dsimp only; split <;> nofun
  | coef a => dsimp only; split <;> nofun
  | reserved => nofun

end

/-- Settles O50: `place_reg` and `place_storage` say which accesses `place` rejects as bus errors; an access
it accepts never ends in one. -/
theorem wrongWidthOrAlignmentIsABusError : Obligations.WrongWidthOrAlignmentIsABusError := by
  intro w o v s
  refine ⟨fun ho => ⟨fun hbad => ?_, fun hok => ?_⟩, fun hlo hhi => ⟨fun hbad => ?_, fun hok => ?_⟩⟩
  · exact hostAccess_of_place_error v s ((place_reg w o ho).trans (if_neg hbad))
  · obtain ⟨hread, hwrite⟩ := hostAccess_of_place_reg v s ((place_reg w o ho).trans (if_pos hok))
    exact ⟨⟨_, hread⟩, ⟨_, hwrite⟩⟩
  · exact hostAccess_of_place_error v s ((place_storage w o hlo hhi).trans (if_neg hbad))
  · have hplace := (place_storage w o hlo hhi).trans (if_pos hok)
    exact ⟨hostRead_ne_busError_of_place_ok s hplace, hostWrite_ne_busError_of_place_ok v s hplace⟩

end Sys2Proof.Machine

/-! The match and mask table follows the decoder (30_encoding.md R109): each row is the row of a command, and it compares OP
and exactly the fields that command does not use. -/

namespace Sys2Proof

/-- The mask of a row (R109): the bits of OP, and those of CTX and of ADDR and LEN where they must be 0. -/
def rowMask (ctxZero operandsZero : Bool) : Word :=
  packCW 63 (if ctxZero then 3 else 0) (if operandsZero then 4095 else 0) (if operandsZero then 4095 else 0)

/-- R104's table marks both ADDR and LEN of this command "must be 0". -/
def Instr.operandsZero : Instr → Bool
  | .xofInit _ | .xofFinal _ | .xofClear _ | .coefZero => true
  | _ => false

/-- The row of a command in the table of R109 (`row_mem_opcodeRows`). -/
def Instr.row (i : Instr) : OpcodeRow where
  mnemonic := i.mnemonic
  pattern := packCW i.opcode 0 0 0
  mask := rowMask (Machine.ctxOf i).isNone i.operandsZero

theorem opcode_lt (i : Instr) : i.opcode < 64 := by cases i <;> simp [Instr.opcode]

/-- The commands of the table in its order, with operands 0. -/
def rowCommands : List Instr :=
  [.xofInit 0, .xofAbsorb 0 0 0, .xofFinal 0, .xofSqueeze 0 0 0, .xofSeed 0 0 0, .xofClear 0, .compDec 0 0, .ctEnc 0 0,
    .compEnc 0 0, .ctDec 0 0, .bufZero 0 0, .coefZero]

theorem opcodeRows_eq_map_row : opcodeRows = rowCommands.map Instr.row := by decide

/-- A row does not depend on its command's operands. -/
theorem row_mem_opcodeRows (i : Instr) : i.row ∈ opcodeRows := by
  rw [opcodeRows_eq_map_row, List.mem_map]
  cases i with
  | xofInit c => exact ⟨.xofInit 0, by decide, rfl⟩
  | xofAbsorb c a l => exact ⟨.xofAbsorb 0 0 0, by decide, rfl⟩
  | xofFinal c => exact ⟨.xofFinal 0, by decide, rfl⟩
  | xofSqueeze c a l => exact ⟨.xofSqueeze 0 0 0, by decide, rfl⟩
  | xofSeed c a l => exact ⟨.xofSeed 0 0 0, by decide, rfl⟩
  | xofClear c => exact ⟨.xofClear 0, by decide, rfl⟩
  | compDec a l => exact ⟨.compDec 0 0, by decide, rfl⟩
  | ctEnc a l => exact ⟨.ctEnc 0 0, by decide, rfl⟩
  | compEnc a l => exact ⟨.compEnc 0 0, by decide, rfl⟩
  | ctDec a l => exact ⟨.ctDec 0 0, by decide, rfl⟩
  | bufZero a l => exact ⟨.bufZero 0 0, by decide, rfl⟩
  | coefZero => exact ⟨.coefZero, by decide, rfl⟩

theorem exists_row_eq {r : OpcodeRow} (hr : r ∈ opcodeRows) : ∃ i : Instr, i.row = r := by
  rw [opcodeRows_eq_map_row] at hr
  obtain ⟨i, -, hi⟩ := List.mem_map.1 hr
  exact ⟨i, hi⟩

theorem opcodeRows_mnemonic_injective : ∀ r ∈ opcodeRows, ∀ q ∈ opcodeRows, r.mnemonic = q.mnemonic → r = q := by
  decide

/-- `and_eq_iff_fields` on the numbers the fields hold (R102). -/
theorem and_eq_iff_field_values (w m p : Word) : w &&& m = p ↔
    fieldOp w &&& fieldOp m = fieldOp p ∧ (fieldCtx w).val &&& (fieldCtx m).val = (fieldCtx p).val ∧
      fieldAddr w &&& fieldAddr m = fieldAddr p ∧ fieldLen w &&& fieldLen m = fieldLen p := by
  rw [and_eq_iff_fields]
  simp only [← BitVec.toNat_inj, BitVec.toNat_and, fieldOp, fieldCtx, fieldAddr, fieldLen]

/-- A mask of `n` ones compares a field of `n` bits with 0; a mask of zeros compares nothing. -/
theorem and_ones_eq_zero_iff {x n : Nat} (hx : x < 2 ^ n) (zero : Bool) :
    x &&& (if zero then 2 ^ n - 1 else 0) = 0 ↔ (zero = true → x = 0) := by
  cases zero with
  | false => simp
  | true => simp [Nat.and_two_pow_sub_one_of_lt_two_pow hx]

/-- Each field of a mask is all ones or all zeros. -/
theorem fields_rowMask (ctxZero operandsZero : Bool) :
    fieldOp (rowMask ctxZero operandsZero) = 2 ^ 6 - 1 ∧
      (fieldCtx (rowMask ctxZero operandsZero)).val = (if ctxZero then 2 ^ 2 - 1 else 0) ∧
      fieldAddr (rowMask ctxZero operandsZero) = (if operandsZero then 2 ^ 12 - 1 else 0) ∧
      fieldLen (rowMask ctxZero operandsZero) = (if operandsZero then 2 ^ 12 - 1 else 0) := by
  cases ctxZero <;> cases operandsZero <;> decide

theorem and_rowMask_eq_iff (w : Word) (op : Nat) (hop : op < 64) (ctxZero operandsZero : Bool) :
    w &&& rowMask ctxZero operandsZero = packCW op 0 0 0 ↔
      fieldOp w = op ∧ (ctxZero = true → fieldCtx w = 0) ∧
        (operandsZero = true → fieldAddr w = 0 ∧ fieldLen w = 0) := by
  obtain ⟨hwop, hwaddr, hwlen⟩ := fields_lt w
  obtain ⟨hpop, hpctx, hpaddr, hplen⟩ := fields_packCW op 0 0 0 hop (by decide) (by decide)
  obtain ⟨hmop, hmctx, hmaddr, hmlen⟩ := fields_rowMask ctxZero operandsZero
  rw [and_eq_iff_field_values, hmop, hmctx, hmaddr, hmlen, hpop, hpctx, hpaddr, hplen,
    Nat.and_two_pow_sub_one_of_lt_two_pow hwop, Fin.val_zero, and_ones_eq_zero_iff (fieldCtx w).isLt,
    and_ones_eq_zero_iff hwaddr, and_ones_eq_zero_iff hwlen, Fin.val_eq_zero_iff, ← imp_and]

/-- What a command's row compares: OP, and the fields R104's table marks "must be 0". -/
theorem and_row_mask_eq_iff (w : Word) (i : Instr) : w &&& i.row.mask = i.row.pattern ↔
    fieldOp w = i.opcode ∧ ((Machine.ctxOf i).isNone = true → fieldCtx w = 0) ∧
      (i.operandsZero = true → fieldAddr w = 0 ∧ fieldLen w = 0) :=
  and_rowMask_eq_iff w i.opcode (opcode_lt i) _ _

/-- With the fields its row compares as they must be, a word passes every check of the decoder's case for that OP. -/
theorem exists_decode_of_selects_row {w : Word} {i : Instr} (h : w &&& i.row.mask = i.row.pattern) :
    ∃ j, decode w = .ok j ∧ j.mnemonic = i.mnemonic := by
  obtain ⟨hop, hctx, hoperands⟩ := (and_row_mask_eq_iff w i).1 h
  rw [decode, hop]
  cases i <;> simp_all [decodeFields, Instr.opcode, ifReservedZero, Machine.ctxOf, Instr.operandsZero, Instr.mnemonic]

/-- The decoder accepts a command only where the fields its row compares are as they must be. -/
theorem selects_row_of_decode {w : Word} {i : Instr} (h : decode w = .ok i) : w &&& i.row.mask = i.row.pattern := by
  obtain ⟨-, haddr, hlen⟩ := fields_lt w
  obtain ⟨-, -, hop⟩ := decodeFields_ok _ _ _ _ i haddr hlen h
  refine (and_row_mask_eq_iff w i).2 ⟨hop.symm, ?_⟩
  rw [decode, ← hop] at h
  cases i <;> simp_all [decodeFields, Instr.opcode, ifReservedZero_ok, Machine.ctxOf, Instr.operandsZero]

/-- The decoder refuses a word exactly when it selects no row of R109. -/
theorem decode_error_iff_selects_no_row (w : Word) :
    (∃ e, decode w = .error e) ↔ ∀ r ∈ opcodeRows, w &&& r.mask ≠ r.pattern := by
  constructor
  · rintro ⟨e, he⟩ r hr hsel
    obtain ⟨i, rfl⟩ := exists_row_eq hr
    obtain ⟨j, hj, -⟩ := exists_decode_of_selects_row hsel
    rw [he] at hj
    cases hj
  · intro hnone
    cases hd : decode w with
    | error e => exact ⟨e, rfl⟩
    | ok i => exact absurd (selects_row_of_decode hd) (hnone i.row (row_mem_opcodeRows i))

theorem selects_iff_mnemonic_of_decode {w : Word} {i : Instr} (hd : decode w = .ok i) {r : OpcodeRow}
    (hr : r ∈ opcodeRows) : w &&& r.mask = r.pattern ↔ r.mnemonic = i.mnemonic := by
  constructor
  · intro hsel
    obtain ⟨k, rfl⟩ := exists_row_eq hr
    obtain ⟨j, hj, hname⟩ := exists_decode_of_selects_row hsel
    cases hd.symm.trans hj
    exact hname.symm
  · intro hname
    rw [opcodeRows_mnemonic_injective r hr i.row (row_mem_opcodeRows i) hname]
    exact selects_row_of_decode hd

/-- Settles O8: the row of the command a word decodes to is selected (`selects_row_of_decode`), a selected row names the
command the word decodes to (`exists_decode_of_selects_row`), and no two rows share a mnemonic. -/
theorem decodeFollowsMatchAndMask : Obligations.DecodeFollowsMatchAndMask :=
  fun w => ⟨fun _ hd _ hr => selects_iff_mnemonic_of_decode hd hr, decode_error_iff_selects_no_row w⟩

/-! An illegal word (30_encoding.md R106) is a word the decoder refuses, and ENGINE ends it with ILLEGAL. -/

theorem ifReservedZero_error_iff (z : Bool) (i : Instr) : (∃ e, ifReservedZero z i = .error e) ↔ z = false := by
  cases z <;> simp [ifReservedZero]

/-- One case per OP of the table, and one for every other OP: what must be 0 there is what the decoder checks. -/
theorem illegalWord_iff_decode_error (w : Word) : Machine.IllegalWord w ↔ ∃ e, decode w = .error e := by
  unfold decode decodeFields Machine.IllegalWord
  split <;> simp_all [ifReservedZero_error_iff, imp_iff_not_or, or_assoc]

end Sys2Proof

namespace Sys2Proof.Machine

theorem engineStep_illegal {w : Word} {s : State} (hp : s.pending = some w) (hw : IllegalWord w) :
    engineStep s = raiseErr .illegal s := by
  obtain ⟨e, he⟩ := (illegalWord_iff_decode_error w).1 hw
  rw [engineStep_some w s hp, execWord_error w e s he]

/-- Settles O11: R106's words are the decoder's refusals, read off its case analysis of OP, and ENGINE answers a refusal
with `raiseErr`. -/
theorem illegalWordsFailWithIllegal : Obligations.IllegalWordsFailWithIllegal := by
  refine fun w => ⟨illegalWord_iff_decode_error w, fun s hp hw => ?_⟩
  rw [engineStep_illegal hp hw]
  exact raiseErr_failsWith .illegal s (by decide)

end Sys2Proof.Machine

/-! The XOF commands (40_xof.md R141 to R146): what a command whose only write is its context leaves behind, said once, and
that an illegal word has no meaning of its own. -/

namespace Sys2Proof.Machine

/-- A command whose checks pass succeeds with the count it reports (60_exceptions.md R221). -/
theorem Effect.succeeded {i : Instr} {s u : State} {r : Nat} (h : Effect i s u r) (hr : r < 4096) :
    Succeeded r s { u.complete .ok with result := resultWord r } := by
  obtain ⟨hstatus, -, -, hprogram, hpc, hscript, hbusData⟩ := h.frame
  exact done_succeeded r s u hr hprogram hpc hstatus hscript hbusData

/-- A command whose one write sets context `c` to `x`: XSTAT shows the mode of `x`, and all else is as before. -/
theorem exec_of_effect_setCtx {i : Instr} {s : State} {c : CtxId} {x : XofCtx} {r : Nat}
    (h : Effect i s (s.setCtx c x) r) (hr : r < 4096) :
    ∃ t, exec i s = .next t ∧ Succeeded r s t ∧ t.ctx[c] = x ∧ xstatField c t = x.mode.bits ∧
      SameOtherCtx c s t ∧ SameBuf s t ∧ SameCoef s t := by
  have hctx : (s.setCtx c x).ctx[c] = x := setCtx_ctx_self s c x
  refine ⟨_, exec_of_effect h, h.succeeded hr, hctx, ?_, fun d => setCtx_ctx_other s c d x, fun _ => rfl, fun _ => rfl⟩
  rw [xstatField_eq, complete_ctx, hctx]

/-- ENGINE refuses an illegal word in every state, before any other check (30_encoding.md R106). -/
theorem execWord_illegal_failsWith {w : Word} (hw : IllegalWord w) (s : State) :
    FailsWith .illegal (execWord w s) s := by
  obtain ⟨e, he⟩ := (illegalWord_iff_decode_error w).1 hw
  rw [execWord_error w e s he]
  exact raiseErr_failsWith .illegal s (by decide)

/-- A word of INIT, FINAL or CLEAR is illegal when one of the two operand fields R104 marks "must be 0" is not zero. -/
theorem illegalWord_of_operands_ne_zero {w : Word} (hop : fieldOp w ∈ [0x01, 0x03, 0x06])
    (h : fieldAddr w ≠ 0 ∨ fieldLen w ≠ 0) : IllegalWord w :=
  Or.inr (Or.inl ⟨hop, h⟩)

theorem decode_xofInit {w : Word} (hop : fieldOp w = 0x01) (ha : fieldAddr w = 0) (hl : fieldLen w = 0) :
    decode w = .ok (.xofInit (fieldCtx w)) := by
  rw [decode, hop, ha, hl]
  rfl

/-- Settles O17: INIT has no checks, and its one write sets its context (`exec_of_effect_setCtx`); its word with ADDR or LEN
not zero is one of R106's illegal words. -/
theorem xofInitStartsAnEmptyMessage : Obligations.XofInitStartsAnEmptyMessage := by
  refine ⟨fun c s => exec_of_effect_setCtx ⟨rfl, rfl⟩ (by decide), fun w hop => ⟨?_, fun hne s => ?_⟩⟩
  · rintro ⟨ha, hl⟩
    exact decode_xofInit hop ha hl
  · exact execWord_illegal_failsWith (illegalWord_of_operands_ne_zero (by simp [hop]) hne) s

end Sys2Proof.Machine

/-! The two coefficient formats, bit by bit (41_codec.md R171 to R173): the layout of a code, the slots of a constant-time
stream, and which vectors either format holds. -/

namespace Sys2Proof.Machine

/-! ### The compressed format -/

/-- The bits of e(x) by position (R171): the sign, the low 7 bits of the magnitude m, m / 128 zeros, a one. -/
theorem compEncodeCoef_getElem? (x : Coef) :
    (compEncodeCoef x)[0]? = some (decide (x.toInt < 0)) ∧
    (∀ k < 7, (compEncodeCoef x)[1 + k]? = some (x.toInt.natAbs.testBit (6 - k))) ∧
    (∀ k < x.toInt.natAbs / 128, (compEncodeCoef x)[8 + k]? = some false) ∧
    (compEncodeCoef x)[8 + x.toInt.natAbs / 128]? = some true := by
  rw [compEncodeCoef_eq]
  generalize x.toInt.natAbs = m
  have hlow : (bitsOf (BitVec.ofNat 7 m)).length = 7 := bitsOf_length _
  have htail (k : Nat) (sgn : Bool) (tail : Bits) : (sgn :: (bitsOf (BitVec.ofNat 7 m) ++ tail))[8 + k]? = tail[k]? := by
    rw [show 8 + k = (7 + k) + 1 by omega, List.getElem?_cons_succ, List.getElem?_append_right (by omega), hlow,
      Nat.add_sub_cancel_left]
  refine ⟨rfl, fun k hk => ?_, fun k hk => ?_, ?_⟩
  · rw [Nat.add_comm, List.getElem?_cons_succ, List.getElem?_append_left (by omega), List.getElem?_eq_getElem (by omega),
      bitsOf_getElem, BitVec.getLsbD_ofNat, show 7 - 1 - k = 6 - k by omega, decide_eq_true (by omega), Bool.true_and]
  · rw [htail, List.getElem?_append_left (by simpa using hk), List.getElem?_replicate_of_lt hk]
  · rw [htail, List.getElem?_append_right (by simp), List.length_replicate, Nat.sub_self, List.getElem?_cons_zero]

/-- Settles O34: the stream is the codes and the padding (`bitsOfBytes_compEncode`), and each code is laid out as R171
says (`compEncodeCoef_getElem?`). -/
theorem compressedStreamLayout : Obligations.CompressedStreamLayout := by
  refine ⟨fun v hv => ?_, fun x _ => ⟨compEncodeCoef_length x, compEncodeCoef_getElem? x⟩⟩
  obtain ⟨hlen, hrange⟩ := hv
  exact ⟨_, by omega, bitsOfBytes_compEncode v, compEncode_length_bounds v hlen hrange⟩

/-! ### The constant-time format -/

/-- The codes have 12 bits each, so the bits [12u, 12u + 12) of a run of codes are the code of entry `u`. -/
theorem flatMap_ctEncodeCoef_slot (v : List Coef) (u : Nat) (h : u < v.length) :
    ((v.flatMap ctEncodeCoef).drop (12 * u)).take 12 = ctEncodeCoef v[u] := by
  induction v generalizing u with
  | nil => exact absurd h (Nat.not_lt_zero u)
  | cons x v ih =>
    rw [List.flatMap_cons]
    cases u with
    | zero => exact List.take_left' (ctEncodeCoef_length x)
    | succ u =>
      have hdrop : (ctEncodeCoef x ++ v.flatMap ctEncodeCoef).drop (12 * (u + 1)) =
          (v.flatMap ctEncodeCoef).drop (12 * u) := by
        rw [show 12 * (u + 1) = (ctEncodeCoef x).length + 12 * u by rw [ctEncodeCoef_length]; omega, List.drop_append]
        simp
      rw [hdrop, ih u (Nat.lt_of_succ_lt_succ h), List.getElem_cons_succ]

theorem bitsOfBytes_ctEncode {v : List Coef} (hv : v.length = 1024) :
    bitsOfBytes (ctEncode v) = v.flatMap ctEncodeCoef :=
  bitsOfBytes_bytesOfBits 1536 _ (by rw [flatMap_ctEncodeCoef_length, hv])

/-- Slot `u` of a constant-time stream is the 12-bit pattern of entry `u` (R172). -/
theorem ctSlot_ctEncode {v : List Coef} (hv : v.length = 1024) (u : Nat) (h : u < v.length) :
    ctSlot (ctEncode v) u = v[u].setWidth 12 := by
  rw [ctSlot, bitsOfBytes_ctEncode hv, flatMap_ctEncodeCoef_slot v u h, ctEncodeCoef, natOfBits_bitsOf,
    BitVec.ofNat_toNat, BitVec.setWidth_eq]

/-- Settles O35: 1024 codes of 12 bits fill 1536 bytes, and a slot is one of them (`ctSlot_ctEncode`). -/
theorem constantTimeStreamLayout : Obligations.ConstantTimeStreamLayout := by
  rintro v ⟨hlen, -⟩
  exact ⟨ctEncode_length v hlen, ctSlot_ctEncode hlen⟩

/-! ### The vectors of either format -/

theorem coefInRange_iff_toInt (x : Coef) : coefInRange x = true ↔ -2047 ≤ x.toInt ∧ x.toInt ≤ 2047 := by
  rw [coefInRange_iff]
  omega

/-- Settles O36: what either decoder accepts is in range, and a vector in range is read back from its own stream. -/
theorem bothFormatsHoldTheSameVectors : Obligations.BothFormatsHoldTheSameVectors := by
  intro v hlen
  simp only [← coefInRange_iff_toInt]
  refine ⟨⟨?_, fun hv => ?_⟩, ⟨?_, fun hv => ?_⟩⟩
  · rintro ⟨s, hs⟩
    obtain ⟨-, hv, -⟩ := compDecode_some _ s v hs
    exact hv
  · exact ⟨compEncode v, hlen ▸ compDecode_compEncode v hv⟩
  · rintro ⟨s, hbytes, hs⟩
    obtain ⟨-, hv, -⟩ := ctDecode_some s v hbytes hs
    exact hv
  · exact ⟨ctEncode v, ctEncode_length v hlen, ctDecode_ctEncode v hlen hv⟩

/-! ### Decoding by slots -/

/-- The vector CT.DEC reads from 1536 bytes when it accepts them: the slots, sign-extended (R181). -/
def ctSlots (s : List Byte) : List Coef := (List.range 1024).map fun u => (ctSlot s u).signExtend 16

theorem ctSlots_length (s : List Byte) : (ctSlots s).length = 1024 := by simp [ctSlots]

theorem take_eq_flatMap_slots (bs : Bits) (n : Nat) :
    bs.take (12 * n) = (List.range n).flatMap fun u => (bs.drop (12 * u)).take 12 := by
  induction n with
  | zero => rfl
  | succ n ih => rw [List.range_succ, List.flatMap_append, ← ih, List.flatMap_singleton, Nat.mul_succ, List.take_add]

/-- The code of a slot that is not 0x800 is the slot's own bits. -/
theorem ctEncodeCoef_signExtend_ctSlot {s : List Byte} {u : Nat} (hs : s.length = 1536) (hu : u < 1024)
    (h : ctSlot s u ≠ 0x800) : ctEncodeCoef ((ctSlot s u).signExtend 16) = ((bitsOfBytes s).drop (12 * u)).take 12 := by
  rw [ctEncodeCoef, (signExtend_inRange _ h).2, ctSlot, bitsOf_ofNat_natOfBits]
  rw [List.length_take, List.length_drop, bitsOfBytes_length]
  omega

/-- A stream without the pattern 0x800 is the stream of its sign-extended slots. -/
theorem ctEncode_ctSlots {s : List Byte} (hs : s.length = 1536) (h : ∀ u < 1024, ctSlot s u ≠ 0x800) :
    ctEncode (ctSlots s) = s := by
  have hbits : (ctSlots s).flatMap ctEncodeCoef = bitsOfBytes s := by
    rw [ctSlots, List.flatMap_map, ← List.take_of_length_le (i := 12 * 1024) (l := bitsOfBytes s) (by simp [hs]),
      take_eq_flatMap_slots]
    refine List.flatMap_congr fun u hmem => ?_
    have hu : u < 1024 := List.mem_range.1 hmem
    exact ctEncodeCoef_signExtend_ctSlot hs hu (h u hu)
  rw [ctEncode, hbits, bytesOfBits_bitsOfBytes]

/-- Without the pattern 0x800 the decoder answers the sign-extended slots (R181). -/
theorem ctDecode_of_slots {s : List Byte} (hs : s.length = 1536) (h : ∀ u < 1024, ctSlot s u ≠ 0x800) :
    ctDecode s = some (ctSlots s) := by
  have hrange : ∀ x ∈ ctSlots s, coefInRange x = true := by
    intro x hx
    obtain ⟨u, hu, rfl⟩ := List.mem_map.1 hx
    exact (signExtend_inRange _ (h u (List.mem_range.1 hu))).1
  have hdecode := ctDecode_ctEncode (ctSlots s) (ctSlots_length s) hrange
  rwa [ctEncode_ctSlots hs h] at hdecode

/-- A stream with the pattern 0x800 in a slot is refused: no coefficient in range has it (R173, R181). -/
theorem ctDecode_eq_none {s : List Byte} {u : Nat} (hs : s.length = 1536) (hu : u < 1024) (h : ctSlot s u = 0x800) :
    ctDecode s = none := by
  cases hv : ctDecode s with
  | none => rfl
  | some v =>
    obtain ⟨hlen, hrange, rfl⟩ := ctDecode_some s v hs hv
    have huv : u < v.length := hlen ▸ hu
    rw [ctSlot_ctEncode hlen u huv] at h
    exact absurd h (signExtend_setWidth _ (hrange _ (List.getElem_mem huv))).2

end Sys2Proof.Machine

/-! The codec commands (41_codec.md R176, R180, R181): what a command whose only write is one region of BUF, or COEF, leaves
behind, the failures they share, and their words. -/

namespace Sys2Proof.Machine

/-! ### What a write of BUF or COEF leaves behind -/

theorem bufWritten_of_writeBytes {a : Nat} {bs : List Byte} {s t : State} (hwf : s.buf.wf = true)
    (h : t.buf = s.buf.writeBytes a bs) : BufWritten a bs s t := by
  rw [BufWritten, h]
  exact ⟨readBytes_writeBytes _ _ _ hwf, read?_writeBytes_of_outside _ _ _ hwf⟩

theorem coefIs_of_writeCoefs {v : List Coef} {m : Memory} {t : State} (hwf : m.wf = true) (hv : v.length = 1024)
    (h : t.coef = m.writeCoefs v) : CoefIs v t := by
  have hread : t.coef.readCoefs = some v := by rw [h, readCoefs_writeCoefs m v hwf hv]
  refine ⟨hread, fun i hi => ?_⟩
  rw [(readCoef?_of_readCoefs _ _ hread).2 i (by simpa [hv] using hi), List.getElem?_eq_getElem hi]

/-- A command whose one write is the region of BUF at `a`: that region is `bs`, and all else is as before. -/
theorem exec_of_effect_writeBytes {i : Instr} {s : State} {a r : Nat} {bs : List Byte}
    (h : Effect i s { s with buf := s.buf.writeBytes a bs } r) (hr : r < 4096) (hwf : s.buf.wf = true) :
    ∃ t, exec i s = .next t ∧ Succeeded r s t ∧ BufWritten a bs s t ∧ SameCtx s t ∧ SameCoef s t :=
  ⟨_, exec_of_effect h, h.succeeded hr, bufWritten_of_writeBytes hwf rfl, fun _ => rfl, fun _ => rfl⟩

/-- A command whose one write is COEF: COEF is `v`, and all else is as before. -/
theorem exec_of_effect_writeCoefs {i : Instr} {s : State} {r : Nat} {v : List Coef}
    (h : Effect i s { s with coef := s.coef.writeCoefs v } r) (hr : r < 4096) (hwf : s.coef.wf = true)
    (hv : v.length = 1024) :
    ∃ t, exec i s = .next t ∧ Succeeded r s t ∧ CoefIs v t ∧ SameCtx s t ∧ SameBuf s t :=
  ⟨_, exec_of_effect h, h.succeeded hr, coefIs_of_writeCoefs hwf hv rfl, fun _ => rfl, fun _ => rfl⟩

/-! ### The failures and the words they share -/

/-- The range check comes first in each of the commands on a region that name no context (60_exceptions.md R224). -/
theorem exec_region_range {i : Instr} {a l : Nat} (h : 4096 < a + l)
    (hi : i ∈ [.compDec a l, .ctEnc a l, .compEnc a l, .ctDec a l, .bufZero a l]) (s : State) :
    FailsWith .range (exec i s) s := by
  have hin : inBuf a l = false := (inBuf_eq_false_iff a l).2 h
  have hexec : exec i s = raiseErr .range s := by
    simp only [List.mem_cons, List.not_mem_nil, or_false] at hi
    obtain rfl | rfl | rfl | rfl | rfl := hi
    · simp [exec, execCompDec, hin]
    · simp [exec, execCtEnc, hin]
    · simp [exec, execCompEnc, hin]
    · simp [exec, execCtDec, hin]
    · simp [exec, execBufZero, hin]
  rw [hexec]
  exact raiseErr_failsWith .range s (by decide)

/-- A word of one of these commands decodes to its command when CTX is zero, and is illegal when it is not (R104, R106). -/
theorem region_word {w : Word} {op : Nat} {i : Instr} (hop : fieldOp w = op) (hmem : op ∈ [0x10, 0x11, 0x12, 0x13, 0x20])
    (hi : decodeFields op 0 (fieldAddr w) (fieldLen w) = .ok i) :
    (fieldCtx w = 0 → decode w = .ok i) ∧ (fieldCtx w ≠ 0 → ∀ s, FailsWith .illegal (execWord w s) s) := by
  refine ⟨fun hc => ?_, fun hc s => ?_⟩
  · rw [decode, hop, hc, hi]
  · have hw : IllegalWord w := Or.inr (Or.inr (Or.inl ⟨hop ▸ hmem, hc⟩))
    exact execWord_illegal_failsWith hw s

/-- The two checks of an encoder on the vector it has read, VALUE before OVERFLOW (R176, R180). -/
theorem encoder_checks_failsWith {v : List Coef} {l r : Nat} {outcome success : Result} {s : State}
    (h : outcome =
      if !v.all coefInRange then raiseErr .value s else if l < r then raiseErr .overflow s else success) :
    ((∃ x ∈ v, coefInRange x = false) → FailsWith .value outcome s) ∧
      ((∀ x ∈ v, coefInRange x = true) → l < r → FailsWith .overflow outcome s) := by
  refine ⟨fun hbad => ?_, fun hgood hl => ?_⟩
  · rw [h, if_pos (by simpa using hbad)]
    exact raiseErr_failsWith .value s (by decide)
  · rw [h, if_neg (by simpa using hgood), if_pos hl]
    exact raiseErr_failsWith .overflow s (by decide)

/-! ### CT.ENC -/

theorem exec_ctEnc_of_read {a l : Nat} {s : State} {v : List Coef} (h : a + l ≤ 4096) (hv : s.coef.readCoefs = some v) :
    exec (.ctEnc a l) s =
      if !v.all coefInRange then raiseErr .value s
      else if l < 1536 then raiseErr .overflow s
      else done 1536 { s with buf := s.buf.writeBytes a (ctEncode v) } := by
  rw [exec, execCtEnc, (inBuf_iff a l).2 h, hv]
  rfl

/-- Settles O31: with its checks passed CT.ENC writes one region of BUF (`exec_of_effect_writeBytes`); the failures come in
the order of its checks. -/
theorem ctEncWritesTheFixedWidthStream : Obligations.CtEncWritesTheFixedWidthStream := by
  refine ⟨fun a l s v h hv => ⟨fun hgood hl hwf => ?_, ?_⟩, fun a l s h => exec_region_range h (by simp) s,
    fun w hop => region_word hop (by decide) rfl⟩
  · have heffect : Effect (.ctEnc a l) s { s with buf := s.buf.writeBytes a (ctEncode v) } 1536 :=
      ⟨h, hl, v, hv, List.all_eq_true.2 hgood, rfl, rfl⟩
    obtain ⟨t, hexec, hsucc, hframe⟩ := exec_of_effect_writeBytes heffect (by decide) hwf
    exact ⟨t, hexec, hsucc, ctEncode_length v (readCoef?_of_readCoefs _ _ hv).1, hframe⟩
  · exact encoder_checks_failsWith (exec_ctEnc_of_read h hv)

/-! ### COMP.ENC -/

theorem exec_compEnc_of_read {a l : Nat} {s : State} {v : List Coef} (h : a + l ≤ 4096)
    (hv : s.coef.readCoefs = some v) :
    exec (.compEnc a l) s =
      if !v.all coefInRange then raiseErr .value s
      else if l < (compEncode v).length then raiseErr .overflow s
      else done (compEncode v).length { s with buf := s.buf.writeBytes a (compEncode v) } := by
  rw [exec, execCompEnc, (inBuf_iff a l).2 h, hv]
  rfl

/-- Settles O32: with its checks passed COMP.ENC writes one region of BUF, of a length R171 bounds; the failures come in the
order of its checks. -/
theorem compEncWritesTheCompressedStream : Obligations.CompEncWritesTheCompressedStream := by
  refine ⟨fun a l s v hl h hv => ⟨fun hgood hfits hwf => ?_, ?_⟩, fun a l s h => exec_region_range h (by simp) s,
    fun w hop => region_word hop (by decide) rfl⟩
  · have heffect : Effect (.compEnc a l) s { s with buf := s.buf.writeBytes a (compEncode v) } (compEncode v).length :=
      ⟨h, v, hv, List.all_eq_true.2 hgood, hfits, rfl, rfl⟩
    obtain ⟨t, hexec, hsucc, hframe⟩ := exec_of_effect_writeBytes heffect (by omega) hwf
    obtain ⟨hmin, hmax⟩ := compEncode_length_bounds v (readCoef?_of_readCoefs _ _ hv).1 hgood
    exact ⟨t, hexec, hsucc, hmin, hmax, hframe⟩
  · exact encoder_checks_failsWith (exec_compEnc_of_read h hv)

/-! ### CT.DEC -/

theorem exec_ctDec_of_decode_none {a : Nat} {s : State} {bs : List Byte} (h : a + 1536 ≤ 4096)
    (hbs : s.buf.readBytes a 1536 = some bs) (hdecode : ctDecode bs = none) :
    exec (.ctDec a 1536) s = raiseErr .format s := by
  simp [exec, execCtDec, (inBuf_iff a 1536).2 h, hbs, hdecode]

theorem exec_ctDec_of_length_ne {a l : Nat} {s : State} (h : a + l ≤ 4096) (hl : l ≠ 1536) :
    exec (.ctDec a l) s = raiseErr .format s := by
  simp [exec, execCtDec, (inBuf_iff a l).2 h, hl]

/-- Settles O33: the decoder accepts 1536 bytes exactly when no slot is 0x800 and answers the slots sign-extended
(`ctDecode_of_slots`, `ctDecode_eq_none`). -/
theorem ctDecSignExtendsTheSlots : Obligations.CtDecSignExtendsTheSlots := by
  refine ⟨fun a s bs h hbs => ?_, fun a l s h => exec_region_range h (by simp) s, fun a l s h hl => ?_,
    fun w hop => region_word hop (by decide) rfl⟩
  · have hlen : bs.length = 1536 := ((readBytes_eq_some_iff _ _ _ _).1 hbs).1
    refine ⟨fun hslots hwf => ?_, ?_⟩
    · have heffect : Effect (.ctDec a 1536) s { s with coef := s.coef.writeCoefs (ctSlots bs) } 1536 :=
        ⟨h, rfl, bs, _, hbs, ctDecode_of_slots hlen hslots, rfl, rfl⟩
      exact exec_of_effect_writeCoefs heffect (by decide) hwf (ctSlots_length bs)
    · rintro ⟨u, hu, hslot⟩
      rw [exec_ctDec_of_decode_none h hbs (ctDecode_eq_none hlen hu hslot)]
      exact raiseErr_failsWith .format s (by decide)
  · rw [exec_ctDec_of_length_ne h hl]
    exact raiseErr_failsWith .format s (by decide)

end Sys2Proof.Machine

/-! The buffer commands (42_buffer.md R210). -/

namespace Sys2Proof.Machine

/-- Settles O42: BUF.ZERO has the range check alone, and its one write is the region of BUF (`exec_of_effect_writeBytes`). -/
theorem bufZeroZeroesTheRegion : Obligations.BufZeroZeroesTheRegion := by
  refine ⟨fun a l s hl => ⟨fun h hwf => ?_, fun h => exec_region_range h (by simp) s⟩,
    fun w hop => region_word hop (by decide) rfl⟩
  have heffect : Effect (.bufZero a l) s { s with buf := s.buf.writeBytes a (List.replicate l 0) } l := ⟨h, rfl, rfl⟩
  exact exec_of_effect_writeBytes heffect hl hwf

end Sys2Proof.Machine

/-! How commands end (60_exceptions.md R221, R222): the outcome of every word ENGINE completes. -/

namespace Sys2Proof.Machine

/-- The state `raise Err(code)` leaves is that of a failed command. -/
theorem complete_failed {e : StatusCode} (he : e ≠ .ok) (s : State) : Failed e s (s.complete e) := by
  obtain ⟨t, ht, hfailed⟩ := raiseErr_failsWith e s he
  rw [raiseErr_next] at ht
  cases ht
  exact hfailed

/-- A word ENGINE completes failed with a code that is not OK, or decodes to a command that took effect. -/
theorem execWord_next_cases {w : Word} {s t : State} (h : execWord w s = .next t) :
    (∃ e, e ≠ .ok ∧ t = s.complete e) ∨
      ∃ i u r, decode w = .ok i ∧ Effect i s u r ∧ t = { u.complete .ok with result := resultWord r } := by
  cases hd : decode w with
  | error d =>
    rw [execWord_error w d s hd] at h
    cases h
    exact Or.inl ⟨.illegal, by decide, rfl⟩
  | ok i =>
    rw [execWord_ok w i s hd] at h
    obtain hfail | ⟨u, r, heffect, ht⟩ := exec_next_cases i s t h
    · exact Or.inl hfail
    · exact Or.inr ⟨i, u, r, rfl, heffect, ht⟩

/-- Settles O14: a failed word leaves `s.complete e`, and ERR is 0 after a word that took effect (`execWord_next_cases`). -/
theorem failedCommandsChangeOnlyStatus : Obligations.FailedCommandsChangeOnlyStatus := by
  intro w s t h herr
  obtain ⟨e, he, rfl⟩ | ⟨i, u, r, -, -, rfl⟩ := execWord_next_cases h
  · exact ⟨e, he, complete_failed he s⟩
  · have hok : statusErr (statusComplete .ok u.status) = 0 := statusErr_complete .ok u.status
    exact absurd hok herr

end Sys2Proof.Machine

/-! Host accesses to BUF and COEF while a command runs (70_reset_and_hazards.md R271). -/

namespace Sys2Proof.Machine

section
variable {w : Width} {o a : Nat} {s : State} (v : Word)

theorem readStorage_of_busy (hbusy : statusBusy s.status = true) (m : Memory) (unwritten : Fault) :
    readStorage m unwritten w a s = .refused .storageAccessWhileBusy :=
  if_pos hbusy

/-- An access that goes to BUF or COEF is refused before it reads or writes a byte there. -/
theorem hostAccess_storage_of_busy (hbusy : statusBusy s.status = true)
    (h : place w o = .ok (.buf a) ∨ place w o = .ok (.coef a)) :
    hostAccess (.read w o) s = .refused .storageAccessWhileBusy ∧
      hostAccess (.write w o v) s = .refused .storageAccessWhileBusy := by
  obtain hbuf | hcoef := h
  · simp only [hostAccess, hostRead, hostWrite, hbuf, readStorage_of_busy hbusy, if_pos hbusy, and_self]
  · simp only [hostAccess, hostRead, hostWrite, hcoef, readStorage_of_busy hbusy, if_pos hbusy, and_self]

end

/-- Settles O51: an access R77 allows goes to BUF below 0x2000 and to COEF from there on (`place_storage`), and both refuse it
while BUSY = 1. -/
theorem storageAccessWhileBusyIsRefused : Obligations.StorageAccessWhileBusyIsRefused := by
  intro w o v s hlo hhi hallowed hbusy
  have hplace := (place_storage w o hlo hhi).trans (if_pos hallowed)
  split at hplace
  · exact hostAccess_storage_of_busy v hbusy (Or.inl hplace)
  · exact hostAccess_storage_of_busy v hbusy (Or.inr hplace)

end Sys2Proof.Machine

/-! The decoder and the encoder undo each other on the words of well-formed commands (30_encoding.md R100, R104, R108). -/

namespace Sys2Proof

/-- The decoder reads the command's own fields back (`decode_packCW`), and those it leaves unused are 0 in its word. -/
theorem decode_encode {i : Instr} (h : i.wellFormed = true) : decode (encode i) = .ok i := by
  have hword : ∀ {op a l} (c : CtxId), op < 64 → (fits12 a && fits12 l) = true →
      decode (packCW op c a l) = decodeFields op c a l := by
    intro op a l c hop hfit
    obtain ⟨ha, hl⟩ := Laws.EncodeOpcode.operands a l hfit
    exact decode_packCW op c a l hop ha hl
  cases i with
  | xofInit c => exact hword c (by decide) rfl
  | xofAbsorb c a l => exact hword c (by decide) h
  | xofFinal c => exact hword c (by decide) rfl
  | xofSqueeze c a l => exact hword c (by decide) h
  | xofSeed c a l => exact hword c (by decide) h
  | xofClear c => exact hword c (by decide) rfl
  | compDec a l => exact hword 0 (by decide) h
  | ctEnc a l => exact hword 0 (by decide) h
  | compEnc a l => exact hword 0 (by decide) h
  | ctDec a l => exact hword 0 (by decide) h
  | bufZero a l => exact hword 0 (by decide) h
  | coefZero => exact hword 0 (by decide) rfl

theorem encode_of_decode {w : Word} {i : Instr} (h : decode w = .ok i) : i.wellFormed = true ∧ encode i = w := by
  obtain ⟨-, ha, hl⟩ := fields_lt w
  obtain ⟨hfit, hencode, -⟩ := decodeFields_ok _ _ _ _ i ha hl h
  exact ⟨hfit, hencode.trans (packCW_fields w)⟩

/-- Settles O6: command by command, the fields of the word are the command's (`decode_encode`). -/
theorem decodeOfEncodeIsTheCommand : Obligations.DecodeOfEncodeIsTheCommand := fun _ => decode_encode

/-- Settles O7: what the decoder accepts packs into the fields it read (`decodeFields_ok`), and a word is its fields. -/
theorem encodeOfDecodeIsTheWord : Obligations.EncodeOfDecodeIsTheWord := fun _ _ => encode_of_decode

/-- Settles O9: seven closed words. -/
theorem writtenOutWordsDecode : Obligations.WrittenOutWordsDecode := by
  unfold Obligations.WrittenOutWordsDecode
  decide

end Sys2Proof

/-! STATUS after a host write (10_state.md R40, R41, R46): the fields of it that a host's write does not name stay. -/

namespace Sys2Proof.Machine

@[simp] theorem statusBusy_accept (st : Word) : statusBusy (statusAccept st) = true := by
  rw [statusBusy, statusAccept_bit st 0 (by decide)]
  simp

@[simp] theorem statusAnyErr_accept (st : Word) : statusAnyErr (statusAccept st) = statusAnyErr st := by
  rw [statusAnyErr, statusAccept_bit st 8 (by decide)]
  simp [statusAnyErr]

@[simp] theorem statusDrop_accept (st : Word) : statusDrop (statusAccept st) = statusDrop st := by
  rw [statusDrop, statusAccept_bit st 9 (by decide)]
  simp [statusDrop]

@[simp] theorem statusBusy_dropped (st : Word) : statusBusy (statusDropped st) = statusBusy st := by
  rw [statusBusy, statusDropped_bit st 0 (by decide)]
  simp [statusBusy]

@[simp] theorem statusAnyErr_dropped (st : Word) : statusAnyErr (statusDropped st) = statusAnyErr st := by
  rw [statusAnyErr, statusDropped_bit st 8 (by decide)]
  simp [statusAnyErr]

@[simp] theorem statusDrop_dropped (st : Word) : statusDrop (statusDropped st) = true := by
  rw [statusDrop, statusDropped_bit st 9 (by decide)]
  simp

@[simp] theorem statusBusy_write (v st : Word) : statusBusy (statusWrite v st) = statusBusy st := by
  rw [statusBusy, statusWrite_bit v st 0 (by decide)]
  simp [statusBusy]

@[simp] theorem statusAnyErr_write (v st : Word) :
    statusAnyErr (statusWrite v st) = (statusAnyErr st && !v.getLsbD 8) := by
  rw [statusAnyErr, statusWrite_bit v st 8 (by decide)]
  simp [statusAnyErr]

@[simp] theorem statusDrop_write (v st : Word) : statusDrop (statusWrite v st) = (statusDrop st && !v.getLsbD 9) := by
  rw [statusDrop, statusWrite_bit v st 9 (by decide)]
  simp [statusDrop]

/-- ERR stays when its four bits do. -/
theorem statusErr_congr {st st' : Word} (h : ∀ k, 4 ≤ k → k < 8 → st'.getLsbD k = st.getLsbD k) :
    statusErr st' = statusErr st := by
  apply BitVec.eq_of_getLsbD_eq
  intro k hk
  rw [statusErr, statusErr, BitVec.getLsbD_extractLsb', BitVec.getLsbD_extractLsb', h (4 + k) (by omega) (by omega)]

@[simp] theorem statusErr_accept (st : Word) : statusErr (statusAccept st) = statusErr st :=
  statusErr_congr fun k _ _ => by
    rw [statusAccept_bit st k (by omega), decide_eq_false (by omega), Bool.or_false]

@[simp] theorem statusErr_dropped (st : Word) : statusErr (statusDropped st) = statusErr st :=
  statusErr_congr fun k _ _ => by
    rw [statusDropped_bit st k (by omega), decide_eq_false (by omega), Bool.or_false]

/-- A write to STATUS keeps every bit but ANYERR and DROP (R41). -/
theorem statusWrite_bit_other (v st : Word) {k : Nat} (h8 : k ≠ 8) (h9 : k ≠ 9) :
    (statusWrite v st).getLsbD k = st.getLsbD k := by
  by_cases hk : k < 32
  · rw [statusWrite_bit v st k hk]
    simp [h8, h9]
  · rw [BitVec.getLsbD_of_ge _ _ (by omega), BitVec.getLsbD_of_ge _ _ (by omega)]

@[simp] theorem statusErr_write (v st : Word) : statusErr (statusWrite v st) = statusErr st :=
  statusErr_congr fun _ _ _ => statusWrite_bit_other v st (by omega) (by omega)

/-! ### The reserved bits -/

/-- A change of STATUS that leaves each reserved bit leaves them all zero. -/
theorem reserved_congr {st st' : Word} (h : st &&& ~~~statusMask = 0#32)
    (hbits : ∀ k < 32, statusMask.getLsbD k = false → st'.getLsbD k = st.getLsbD k) : st' &&& ~~~statusMask = 0#32 := by
  rw [reserved_iff] at h ⊢
  intro k hk hmask
  rw [hbits k hk hmask, h k hk hmask]

/-- The reserved bits of STATUS are all but BUSY, ERR, ANYERR and DROP (R41). -/
theorem statusMask_bit_false_iff {k : Nat} (hk : k < 32) :
    statusMask.getLsbD k = false ↔ k ≠ 0 ∧ ¬(4 ≤ k ∧ k < 8) ∧ k ≠ 8 ∧ k ≠ 9 := by
  have hbits : ∀ k < 32, statusMask.getLsbD k = false ↔ k ≠ 0 ∧ ¬(4 ≤ k ∧ k < 8) ∧ k ≠ 8 ∧ k ≠ 9 := by decide
  exact hbits k hk

theorem reserved_accept {st : Word} (h : st &&& ~~~statusMask = 0#32) : statusAccept st &&& ~~~statusMask = 0#32 :=
  reserved_congr h fun k hk hmask => by
    obtain ⟨h0, -, -, -⟩ := (statusMask_bit_false_iff hk).1 hmask
    rw [statusAccept_bit st k hk, decide_eq_false h0, Bool.or_false]

theorem reserved_dropped {st : Word} (h : st &&& ~~~statusMask = 0#32) : statusDropped st &&& ~~~statusMask = 0#32 :=
  reserved_congr h fun k hk hmask => by
    obtain ⟨-, -, -, h9⟩ := (statusMask_bit_false_iff hk).1 hmask
    rw [statusDropped_bit st k hk, decide_eq_false h9, Bool.or_false]

theorem reserved_write {v st : Word} (h : st &&& ~~~statusMask = 0#32) : statusWrite v st &&& ~~~statusMask = 0#32 :=
  reserved_congr h fun k hk hmask => by
    obtain ⟨-, -, h8, h9⟩ := (statusMask_bit_false_iff hk).1 hmask
    exact statusWrite_bit_other v st h8 h9

theorem reserved_complete {e : StatusCode} {st : Word} (h : st &&& ~~~statusMask = 0#32) :
    statusComplete e st &&& ~~~statusMask = 0#32 :=
  reserved_congr h fun k hk hmask => by
    obtain ⟨h0, herr, h8, -⟩ := (statusMask_bit_false_iff hk).1 hmask
    rw [statusComplete_bit e st k hk, if_neg h0, if_neg herr, if_neg h8]

theorem StatusCode.bits_lt (e : StatusCode) : e.bits.toNat < 8 := by cases e <;> decide

theorem resultWord_reserved (r : Nat) : resultWord r &&& ~~~0x00000FFF#32 = 0#32 := by
  apply BitVec.eq_of_getLsbD_eq
  intro k hk
  have hmask : ∀ k < 32, (~~~0x00000FFF#32).getLsbD k = decide (12 ≤ k) := by decide
  have hhigh : 12 ≤ k → (BitVec.ofNat 12 r).getLsbD k = false := BitVec.getLsbD_of_ge _ _
  rw [BitVec.getLsbD_and, hmask k hk, resultWord, BitVec.getLsbD_setWidth, BitVec.getLsbD_zero]
  by_cases h : 12 ≤ k
  · simp [hhigh h]
  · simp [h]

end Sys2Proof.Machine

/-! Every step keeps the state's invariant: the turn of the host, of ENGINE and of reset, each on its own (20_memory.md R84). -/

namespace Sys2Proof.Machine

theorem reset_inv : State.reset.Inv where
  ctxOk c := by
    rw [reset_ctx]
    exact XofCtx.cleared_ok
  bufWf := rfl
  bufWithin := rfl
  coefWf := rfl
  coefWithin := rfl
  statusReserved := by decide
  errBelow8 := by decide
  busyPending := rfl
  resultReserved := by decide
  pcBound := Nat.le_refl 0
  pendingNext := rfl

/-- Settles O3: after reset all storage is empty and every word is zero (`reset_inv`). -/
theorem resetMeetsTheInvariant : Obligations.ResetMeetsTheInvariant := reset_inv

namespace State.Inv

variable {s t : State} (hs : s.Inv)
include hs

/-- The turns to come are no part of the invariant. -/
theorem with_script (ts : List Turn) : State.Inv { s with script := ts } := { hs with }

/-- Nor is what the host has read. -/
theorem with_busData (v : Option Word) : State.Inv { s with busData := v } := { hs with }

theorem with_result (r : Nat) : State.Inv { s with result := resultWord r } :=
  { hs with resultReserved := resultWord_reserved r }

theorem with_bufBytes {a : Nat} {bs : List Byte} (h : a + bs.length ≤ 4096) :
    State.Inv { s with buf := s.buf.writeBytes a bs } :=
  { hs with
    bufWf := wf_writeBytes _ _ _ hs.bufWf
    bufWithin := within_writeBytes _ _ _ _ hs.bufWithin h }

theorem with_coefBytes {a : Nat} {bs : List Byte} (h : a + bs.length ≤ 2048) :
    State.Inv { s with coef := s.coef.writeBytes a bs } :=
  { hs with
    coefWf := wf_writeBytes _ _ _ hs.coefWf
    coefWithin := within_writeBytes _ _ _ _ hs.coefWithin h }

/-- A change of STATUS that keeps its reserved bits, ERR and BUSY. -/
theorem with_status {st : Word} (hreserved : st &&& ~~~statusMask = 0#32) (herr : statusErr st = statusErr s.status)
    (hbusy : statusBusy st = statusBusy s.status) : State.Inv { s with status := st } :=
  { hs with
    statusReserved := hreserved
    errBelow8 := herr ▸ hs.errBelow8
    busyPending := hbusy.trans hs.busyPending }

/-- With nothing latched the index is at the end of the program (R39). -/
theorem drop_pc_of_pending_none (h : s.pending = none) : s.program.drop s.pc = [] := by
  simpa [h] using hs.pendingNext

/-- An accepted command is the program's word at the index (R39, R40). -/
theorem after_acceptCmd (w : Word) (h : s.pending = none) : (acceptCmd w s).Inv :=
  have hend : s.program.length ≤ s.pc := List.drop_eq_nil_iff.1 (hs.drop_pc_of_pending_none h)
  { hs with
    statusReserved := reserved_accept hs.statusReserved
    errBelow8 := by
      rw [acceptCmd_status, statusErr_accept]
      exact hs.errBelow8
    busyPending := statusBusy_accept s.status
    pcBound := by
      have hpc := hs.pcBound
      rw [acceptCmd_pc, acceptCmd_program, List.length_append]
      omega
    pendingNext := by
      rw [acceptCmd_pc, acceptCmd_program, Nat.le_antisymm hs.pcBound hend, List.drop_left]
      rfl }

/-- Completing the latched command moves the index past its word (R39, R221, R222). -/
theorem after_complete {w : Word} (h : s.pending = some w) (e : StatusCode) : (s.complete e).Inv :=
  have hlatched : s.program.drop s.pc = [w] := by simpa [h] using hs.pendingNext
  have hlen : s.program.length - s.pc = 1 := by simpa using congrArg List.length hlatched
  { hs with
    statusReserved := reserved_complete hs.statusReserved
    errBelow8 := by
      rw [complete_status, statusErr_complete]
      exact e.bits_lt
    busyPending := statusBusy_complete e s.status
    pcBound := by
      rw [complete_pc, complete_program]
      omega
    pendingNext := by
      rw [complete_pc, complete_program, List.drop_eq_nil_of_le (by omega)]
      rfl }

/-- What a command writes is a context that meets R33, bytes inside BUF or N coefficients. -/
theorem after_effect {i : Instr} {r : Nat} (h : Effect i s t r) : t.Inv := by
  obtain ⟨hstatus, hresult, hpending, hprogram, hpc, -, -⟩ := h.frame
  obtain ⟨hbuf, hcoef⟩ := h.storage
  have hbufInv : t.buf.wf = true ∧ t.buf.within Config.bufBytes = true := by
    obtain hbuf | ⟨a, bs, hle, hbuf⟩ := hbuf
    · exact hbuf ▸ ⟨hs.bufWf, hs.bufWithin⟩
    · exact hbuf ▸ ⟨wf_writeBytes _ _ _ hs.bufWf, within_writeBytes _ _ _ _ hs.bufWithin hle⟩
  have hcoefInv : t.coef.wf = true ∧ t.coef.within Config.coefBytes = true := by
    obtain hcoef | ⟨v, hv, hcoef⟩ := hcoef
    · exact hcoef ▸ ⟨hs.coefWf, hs.coefWithin⟩
    · exact hcoef ▸ ⟨wf_writeCoefs _ _ hs.coefWf, within_writeCoefs _ _ hs.coefWithin hv⟩
  exact
    { ctxOk := h.keeps_ctxOk hs.ctxOk
      bufWf := hbufInv.1
      bufWithin := hbufInv.2
      coefWf := hcoefInv.1
      coefWithin := hcoefInv.2
      statusReserved := hstatus ▸ hs.statusReserved
      errBelow8 := hstatus ▸ hs.errBelow8
      busyPending := by rw [hstatus, hpending, hs.busyPending]
      resultReserved := hresult ▸ hs.resultReserved
      pcBound := by
        rw [hpc, hprogram]
        exact hs.pcBound
      pendingNext := by rw [hpc, hprogram, hpending, hs.pendingNext] }

theorem after_exec {w : Word} (hp : s.pending = some w) {i : Instr} (h : exec i s = .next t) : t.Inv := by
  obtain ⟨e, -, rfl⟩ | ⟨u, r, heffect, rfl⟩ := exec_next_cases i s t h
  · exact hs.after_complete hp e
  · obtain ⟨-, -, hpending, -⟩ := heffect.frame
    exact ((hs.after_effect heffect).after_complete (hpending.trans hp) .ok).with_result r

theorem after_engineStep (h : engineStep s = .next t) : t.Inv := by
  obtain ⟨-, rfl⟩ | ⟨w, hp, ⟨e, -, rfl⟩ | ⟨i, -, hexec⟩⟩ := engineStep_next_cases s t h
  · exact hs
  · exact hs.after_complete hp .illegal
  · exact hs.after_exec hp hexec

/-- A CMD write latches only where nothing is latched, for BUSY goes with PENDING (R46, R47). -/
theorem after_writeCmd (w : Word) : (writeCmd w s).Inv := by
  rw [writeCmd]
  split
  · exact hs.with_status (reserved_dropped hs.statusReserved) (statusErr_dropped _) (statusBusy_dropped _)
  · rename_i hbusy
    refine hs.after_acceptCmd w ?_
    rw [hs.busyPending] at hbusy
    simpa using hbusy

theorem after_writeReg (r : Reg) (v : Word) : (writeReg r v s).Inv := by
  cases r with
  | cmd => exact hs.after_writeCmd v
  | status => exact hs.with_status (reserved_write hs.statusReserved) (statusErr_write _ _) (statusBusy_write _ _)
  | result => exact hs
  | param => exact hs
  | xstat => exact hs

theorem after_hostAccess {x : Access} (h : hostAccess x s = .next t) : t.Inv := by
  obtain ⟨v, rfl⟩ | ⟨r, v, rfl⟩ | ⟨a, bs, hle, -, rfl⟩ | ⟨a, bs, hle, -, rfl⟩ | rfl := hostAccess_next_cases x s t h
  · exact hs.with_busData v
  · exact hs.after_writeReg r v
  · exact hs.with_bufBytes hle
  · exact hs.with_coefBytes hle
  · exact hs

end State.Inv

/-- Settles O4: the host's access, ENGINE's turn and reset each keep the invariant. -/
theorem everyStepKeepsTheInvariant : Obligations.EveryStepKeepsTheInvariant := by
  intro s t hs h
  obtain ⟨ts, ⟨x, hx⟩ | hengine | rfl⟩ := step_next_cases s t h
  · exact (hs.with_script ts).after_hostAccess hx
  · exact (hs.with_script ts).after_engineStep hengine
  · exact reset_inv.with_script ts

end Sys2Proof.Machine

/-! Steps and turns (20_memory.md R84), and how they move the program's index (10_state.md R39). -/

namespace Sys2Proof.Machine

/-! ### Reset -/

theorem cleared_sponge : XofCtx.cleared.sponge = { bytes := List.replicate 200 0, pos := 0 } := rfl

theorem xstat_reset : xstat State.reset = 0 := by decide

theorem step_reset {s : State} {ts : List Turn} (h : s.script = .reset :: ts) :
    step s = .next { State.reset with script := ts } :=
  step_script_cons s .reset ts h

/-- Settles O1: whatever state the turn finds, it leaves `State.reset` and the turns to come. -/
theorem resetTurnSetsResetValues : Obligations.ResetTurnSetsResetValues := by
  intro s ts h
  have hctx : ∀ c : CtxId, State.reset.ctx[c] = XofCtx.cleared := reset_ctx
  refine ⟨_, step_reset h, rfl, fun c => ⟨hctx c, ?_⟩, rfl, rfl, xstat_reset, rfl, fun _ => rfl, fun _ => rfl⟩
  exact (congrArg XofCtx.sponge (hctx c)).trans cleared_sponge

/-- Settles O2: the fields of `State.reset`, read off. -/
theorem resetStateValues : Obligations.ResetStateValues :=
  ⟨reset_ctx, rfl, rfl, xstat_reset, rfl, rfl, rfl, rfl, rfl⟩

/-! ### ENGINE's turn and the host's -/

/-- ENGINE's turn, where it is next: the script is empty or begins with it. -/
theorem step_engine {s : State} (h : s.script = [] ∨ ∃ ts, s.script = .engine :: ts) :
    ∃ ts, step s = engineStep { s with script := ts } := by
  obtain hnil | ⟨ts, hcons⟩ := h
  · refine ⟨[], ?_⟩
    rw [step_script_nil s hnil, ← hnil]
  · exact ⟨ts, step_script_cons s .engine ts hcons⟩

theorem engineStep_ok {w : Word} {i : Instr} {s : State} (hp : s.pending = some w) (hd : decode w = .ok i) :
    engineStep s = exec i s := by
  rw [engineStep_some w s hp, execWord_ok w i s hd]

/-- Settles O10: the script says whose turn it is, and on its own turn ENGINE runs what PENDING decodes to
(`engineStep_ok`). -/
theorem stepRunsTheLatchedCommand : Obligations.StepRunsTheLatchedCommand := by
  refine ⟨fun s w i hp hd => ⟨fun hnil => ?_, fun ts hcons => ?_⟩, fun s x ts h => step_script_cons s (.host x) ts h⟩
  · rw [step_script_nil s hnil, engineStep_ok hp hd]
  · exact (step_script_cons s .engine ts hcons).trans (engineStep_ok (s := { s with script := ts }) hp hd)

/-- Settles O12: with no turn left it is ENGINE's, which passes when nothing is latched (`engineStep_none`). -/
theorem idleBlockKeepsAllState : Obligations.IdleBlockKeepsAllState := by
  intro s hp hnil
  rw [step_script_nil s hnil, engineStep_none s hp]

/-! ### The index -/

theorem execWord_pc {w : Word} {s t : State} (h : execWord w s = .next t) :
    t.pc = s.pc + 1 ∧ t.program = s.program := by
  obtain ⟨e, -, rfl⟩ | ⟨i, u, r, -, heffect, rfl⟩ := execWord_next_cases h
  · exact ⟨rfl, rfl⟩
  · obtain ⟨-, -, -, hprogram, hpc, -, -⟩ := heffect.frame
    exact ⟨congrArg (· + 1) hpc, hprogram⟩

theorem writeCmd_of_busy (w : Word) {s : State} (h : statusBusy s.status = true) :
    writeCmd w s = { s with status := statusDropped s.status } :=
  if_pos h

theorem hostAccess_pc {x : Access} {s t : State} (h : hostAccess x s = .next t) : t.pc = s.pc := by
  obtain ⟨v, rfl⟩ | ⟨r, v, rfl⟩ | ⟨a, bs, -, -, rfl⟩ | ⟨a, bs, -, -, rfl⟩ | rfl := hostAccess_next_cases x s t h
  · rfl
  · obtain ⟨-, -, -, -, hpc, -, -⟩ := writeReg_frame r v s
    exact hpc
  · rfl
  · rfl
  · rfl

/-- Settles O13: a completed word moves the index (`execWord_pc`), a host access never does (`hostAccess_pc`). -/
theorem indexMovesOnByOne : Obligations.IndexMovesOnByOne := by
  refine ⟨fun w s t h => execWord_pc h, fun w s hbusy => ?_,
    fun s t h => ⟨fun w hp hturn => ?_, fun hp hturn => ?_, fun x ts hturn => ?_, fun ts hturn => ?_⟩⟩
  · rw [writeCmd_of_busy w hbusy]
    exact ⟨rfl, rfl⟩
  · obtain ⟨ts, hstep⟩ := step_engine hturn
    rw [hstep, engineStep_some w { s with script := ts } hp] at h
    obtain ⟨hpc, -⟩ := execWord_pc h
    exact hpc
  · obtain ⟨ts, hstep⟩ := step_engine hturn
    rw [hstep, engineStep_none { s with script := ts } hp] at h
    cases h
    rfl
  · rw [step_script_cons s _ ts hturn] at h
    exact hostAccess_pc (s := { s with script := ts }) h
  · rw [step_reset hturn] at h
    cases h
    rfl

/-! ### Success -/

theorem StatusCode.bits_ne_zero {e : StatusCode} (h : e ≠ .ok) : e.bits ≠ 0 := by
  cases e with
  | ok => exact absurd rfl h
  | illegal | range | arg | state | value | overflow | format => decide

/-- Settles O15: a word that leaves ERR = 0 took effect, and the count of a well-formed command fits RESULT
(`Effect.count_lt`). -/
theorem successfulCommandsReportACount : Obligations.SuccessfulCommandsReportACount := by
  intro w s t h herr
  obtain ⟨e, he, rfl⟩ | ⟨i, u, r, hd, heffect, rfl⟩ := execWord_next_cases h
  · rw [complete_status, statusErr_complete] at herr
    exact absurd herr (StatusCode.bits_ne_zero he)
  · have hr : r < 4096 := heffect.count_lt (encode_of_decode hd).1
    exact ⟨r, hr, heffect.succeeded hr⟩

end Sys2Proof.Machine

/-! The XOF commands (40_xof.md R142 to R146): the outcome of each of their checks, and the effect of each. -/

namespace Sys2Proof.Machine

/-! ### The words of the commands without a region -/

/-- A word of INIT, FINAL or CLEAR decodes to its command when ADDR and LEN are zero, and is illegal when one is not (R104,
R106). -/
theorem contextOnly_word {w : Word} {op : Nat} {i : Instr} (hop : fieldOp w = op) (hmem : op ∈ [0x01, 0x03, 0x06])
    (hi : decodeFields op (fieldCtx w) 0 0 = .ok i) :
    (fieldAddr w = 0 ∧ fieldLen w = 0 → decode w = .ok i) ∧
      (fieldAddr w ≠ 0 ∨ fieldLen w ≠ 0 → ∀ s, FailsWith .illegal (execWord w s) s) := by
  refine ⟨?_, fun hne s => execWord_illegal_failsWith (illegalWord_of_operands_ne_zero (hop ▸ hmem) hne) s⟩
  rintro ⟨ha, hl⟩
  rw [decode, hop, ha, hl, hi]

/-! ### The failures -/

section
variable {c : CtxId} {a l : Nat} {s : State}

theorem exec_xofAbsorb_range (h : 4096 < a + l) : exec (.xofAbsorb c a l) s = raiseErr .range s := by
  simp [exec, execXofAbsorb, (inBuf_eq_false_iff a l).2 h]

theorem exec_xofAbsorb_state (h : a + l ≤ 4096) (hmode : s.ctx[c].mode ≠ .absorb) :
    exec (.xofAbsorb c a l) s = raiseErr .state s := by
  simp [exec, execXofAbsorb, (inBuf_iff a l).2 h, hmode, -Fin.getElem_fin]

theorem exec_xofFinal_state (hmode : s.ctx[c].mode ≠ .absorb) : exec (.xofFinal c) s = raiseErr .state s := by
  simp [exec, execXofFinal, hmode, -Fin.getElem_fin]

theorem exec_xofSqueeze_range (h : 4096 < a + l) : exec (.xofSqueeze c a l) s = raiseErr .range s := by
  simp [exec, execXofSqueeze, (inBuf_eq_false_iff a l).2 h]

theorem exec_xofSqueeze_state (h : a + l ≤ 4096) (hmode : s.ctx[c].mode ≠ .squeeze) :
    exec (.xofSqueeze c a l) s = raiseErr .state s := by
  simp [exec, execXofSqueeze, (inBuf_iff a l).2 h, hmode, -Fin.getElem_fin]

theorem exec_xofSeed_arg (h : l ≠ 48) : exec (.xofSeed c a l) s = raiseErr .arg s := by
  simp [exec, execXofSeed, h]

theorem exec_xofSeed_range (h : 4096 < a + 48) : exec (.xofSeed c a 48) s = raiseErr .range s := by
  simp [exec, execXofSeed, (inBuf_eq_false_iff a 48).2 h]

end

/-! ### The effects -/

section
variable {c : CtxId} {a l : Nat} {s : State}

theorem xofAbsorb_effect {bs : List Byte} (h : a + l ≤ 4096) (hmode : s.ctx[c].mode = .absorb)
    (hbs : s.buf.readBytes a l = some bs) :
    Effect (.xofAbsorb c a l) s (s.setCtx c { mode := .absorb, msg := s.ctx[c].msg ++ bs, out := s.ctx[c].out }) l :=
  ⟨h, hmode, bs, hbs, by rw [← hmode], rfl⟩

theorem xofFinal_effect (hmode : s.ctx[c].mode = .absorb) :
    Effect (.xofFinal c) s (s.setCtx c { mode := .squeeze, msg := s.ctx[c].msg, out := 0 }) 0 :=
  ⟨hmode, rfl, rfl⟩

theorem xofSeed_effect {bs : List Byte} (h : a + 48 ≤ 4096) (hbs : s.buf.readBytes a 48 = some bs) :
    Effect (.xofSeed c a 48) s (s.setCtx c { mode := .squeeze, msg := bs, out := 0 }) 48 :=
  ⟨rfl, h, bs, hbs, rfl, rfl⟩

/-- SQUEEZE is the one XOF command with two writes: the next bytes to BUF, and the output position. -/
theorem exec_xofSqueeze_next (h : a + l ≤ 4096) (hmode : s.ctx[c].mode = .squeeze) :
    ∃ t, exec (.xofSqueeze c a l) s = .next t ∧ (l < 4096 → Succeeded l s t) ∧
      t.buf = s.buf.writeBytes a (s.ctx[c].nextBytes l) ∧ t.ctx[c] = s.ctx[c].advance l ∧ SameOtherCtx c s t ∧
      SameCoef s t := by
  have heffect : Effect (.xofSqueeze c a l) s
      { s.setCtx c (s.ctx[c].advance l) with buf := s.buf.writeBytes a (s.ctx[c].nextBytes l) } l := ⟨h, hmode, rfl, rfl⟩
  exact ⟨_, exec_of_effect heffect, heffect.succeeded, rfl, setCtx_ctx_self s c _,
    fun d hd => setCtx_ctx_other s c d _ hd, fun _ => rfl⟩

theorem exec_xofSqueeze_read {t : State} (hbuf : t.buf = s.buf.writeBytes a (s.ctx[c].nextBytes l))
    (hwf : s.buf.wf = true) : t.buf.readBytes a l = some (s.ctx[c].nextBytes l) := by
  have hread := readBytes_writeBytes s.buf a (s.ctx[c].nextBytes l) hwf
  rwa [nextBytes_length, ← hbuf] at hread

end

/-- Settles O18: with its checks passed ABSORB writes its context alone. -/
theorem xofAbsorbAppendsTheRegion : Obligations.XofAbsorbAppendsTheRegion := by
  refine fun c a l s hl => ⟨fun bs h hmode hbs => ?_, fun h => ?_, fun h hmode => ?_⟩
  · obtain ⟨t, hexec, hsucc, hctx, -, hframe⟩ := exec_of_effect_setCtx (xofAbsorb_effect h hmode hbs) hl
    exact ⟨t, hexec, hsucc, hctx, hframe⟩
  · rw [exec_xofAbsorb_range h]
    exact raiseErr_failsWith .range s (by decide)
  · rw [exec_xofAbsorb_state h hmode]
    exact raiseErr_failsWith .state s (by decide)

/-- Settles O19: FINAL writes its context alone, in ABSORB only. -/
theorem xofFinalEntersOutputMode : Obligations.XofFinalEntersOutputMode := by
  refine ⟨fun c s => ⟨fun hmode => exec_of_effect_setCtx (xofFinal_effect hmode) (by decide), fun hmode => ?_⟩,
    fun w hop => contextOnly_word hop (by decide) rfl⟩
  rw [exec_xofFinal_state hmode]
  exact raiseErr_failsWith .state s (by decide)

/-- Settles O20: the bytes of R140 are the context's next bytes, and there are `l` of them. -/
theorem xofSqueezeWritesTheNextBytes : Obligations.XofSqueezeWritesTheNextBytes := by
  refine fun c a l s hl => ⟨fun h hmode hwf => ?_, fun h => ?_, fun h hmode => ?_⟩
  · obtain ⟨t, hexec, hsucc, hbuf, hctx, hother, hcoef⟩ := exec_xofSqueeze_next h hmode
    refine ⟨t, hexec, hsucc hl, nextBytes_length _ _, bufWritten_of_writeBytes hwf hbuf, ?_, hother, hcoef⟩
    rw [hctx, XofCtx.advance, hmode]
  · rw [exec_xofSqueeze_range h]
    exact raiseErr_failsWith .range s (by decide)
  · rw [exec_xofSqueeze_state h hmode]
    exact raiseErr_failsWith .state s (by decide)

/-- Settles O21: with its checks passed SEED writes its context alone. -/
theorem xofSeedTakesFortyEightBytes : Obligations.XofSeedTakesFortyEightBytes := by
  refine fun c a l s => ⟨?_, fun hl => ?_, ?_⟩
  · rintro bs rfl h hbs
    exact exec_of_effect_setCtx (xofSeed_effect h hbs) (by decide)
  · rw [exec_xofSeed_arg hl]
    exact raiseErr_failsWith .arg s (by decide)
  · rintro rfl h
    rw [exec_xofSeed_range h]
    exact raiseErr_failsWith .range s (by decide)

/-- Settles O22: CLEAR has no checks, and its one write sets its context to the cleared one. -/
theorem xofClearZeroizesTheContext : Obligations.XofClearZeroizesTheContext := by
  refine ⟨fun c s => ?_, fun w hop => contextOnly_word hop (by decide) rfl⟩
  have heffect : Effect (.xofClear c) s (s.setCtx c XofCtx.cleared) 0 := ⟨rfl, rfl⟩
  obtain ⟨t, hexec, hsucc, hctx, hframe⟩ := exec_of_effect_setCtx heffect (by decide)
  exact ⟨t, hexec, hsucc, hctx, (congrArg XofCtx.sponge hctx).trans cleared_sponge, hframe⟩

/-! ### Commands in a row (R147) -/

theorem runCommands_cons {i : Instr} {is : List Instr} {s t : State} (h : exec i s = .next t) :
    runCommands (i :: is) s = runCommands is t := by
  rw [runCommands, h]

/-- Memories whose bytes read alike have regions that read alike. -/
theorem readBytes_congr {m m' : Memory} (h : ∀ a, m'.read? a = m.read? a) (a n : Nat) :
    m'.readBytes a n = m.readBytes a n := by
  apply Option.ext
  intro bs
  rw [readBytes_eq_some_iff, readBytes_eq_some_iff]
  simp only [h]

theorem ctx_ext {s t : State} (h : ∀ c : CtxId, t.ctx[c] = s.ctx[c]) : t.ctx = s.ctx :=
  Vector.ext fun i hi => h ⟨i, hi⟩

/-- Settles O23: both ways the message grows by `x ++ y`. -/
theorem splitAbsorbIsOneAbsorb : Obligations.SplitAbsorbIsOneAbsorb := by
  intro c a i b j d x y s hi hj hij ha hb hd hmode hx hy hxy
  obtain ⟨t1, hexec1, -, hctx1, -, -, hbuf1, -⟩ := exec_of_effect_setCtx (xofAbsorb_effect ha hmode hx) hi
  obtain ⟨u, hexecu, -, hctxu, -⟩ := exec_of_effect_setCtx (xofAbsorb_effect hd hmode hxy) hij
  have hmode1 : t1.ctx[c].mode = .absorb := by rw [hctx1]
  have hy1 : t1.buf.readBytes b j = some y := by
    rw [readBytes_congr hbuf1, hy]
  obtain ⟨t2, hexec2, -, hctx2, -⟩ := exec_of_effect_setCtx (xofAbsorb_effect hb hmode1 hy1) hj
  refine ⟨t1, t2, u, hexec1, hexec2, hexecu, ?_⟩
  rw [hctx2, hctxu, hctx1]
  simp only [List.append_assoc]

theorem advance_advance (x : XofCtx) (l1 l2 : Nat) : (x.advance l1).advance l2 = x.advance (l1 + l2) := by
  simp only [XofCtx.advance, Nat.add_assoc]

/-- Settles O24: the next l1 + l2 bytes are the next l1 and the next l2 after them (`nextBytes_add`), written side by side. -/
theorem splitSqueezeIsOneSqueeze : Obligations.SplitSqueezeIsOneSqueeze := by
  intro c a l1 l2 s hl h hmode hwf
  obtain ⟨t1, hexec1, -, hbuf1, hctx1, -⟩ := exec_xofSqueeze_next (show a + l1 ≤ 4096 by omega) hmode
  have hmode1 : t1.ctx[c].mode = .squeeze := by rw [hctx1, XofCtx.advance, hmode]
  obtain ⟨t2, hexec2, -, hbuf2, hctx2, -⟩ := exec_xofSqueeze_next (show a + l1 + l2 ≤ 4096 by omega) hmode1
  obtain ⟨u, hexecu, -, hbufu, hctxu, -⟩ := exec_xofSqueeze_next (show a + (l1 + l2) ≤ 4096 by omega) hmode
  refine ⟨t1, t2, u, hexec1, hexec2, hexecu, ?_, ?_⟩
  · have happend := writeBytes_append s.buf a (s.ctx[c].nextBytes l1) ((s.ctx[c].advance l1).nextBytes l2) hwf
    rw [nextBytes_length] at happend
    rw [hbuf2, hbuf1, hctx1, hbufu, happend, nextBytes_add _ hmode]
  · rw [hctx2, hctx1, hctxu, advance_advance]

/-- Settles O25: the next bytes depend on the context alone. -/
theorem equalContextsPutOutEqualBytes : Obligations.EqualContextsPutOutEqualBytes := by
  intro c d a b l s s' hl ha hb hmode hctx hwf hwf'
  obtain ⟨t, hexec, -, hbuf, -⟩ := exec_xofSqueeze_next ha hmode
  obtain ⟨t', hexec', -, hbuf', -⟩ := exec_xofSqueeze_next hb (hctx ▸ hmode)
  refine ⟨t, t', s.ctx[c].nextBytes l, hexec, hexec', exec_xofSqueeze_read hbuf hwf, ?_⟩
  rw [hctx]
  exact exec_xofSqueeze_read hbuf' hwf'

/-- Settles O26: both leave the context (SQUEEZE, the 48 bytes, 0), and neither touches another one. -/
theorem seedIsInitAbsorbFinal : Obligations.SeedIsInitAbsorbFinal := by
  intro c a bs s h hbs
  have hinit : Effect (.xofInit c) s (s.setCtx c { mode := .absorb, msg := [], out := 0 }) 0 := ⟨rfl, rfl⟩
  obtain ⟨t, hseed, -, hctx, -, hother, -⟩ := exec_of_effect_setCtx (xofSeed_effect h hbs) (by decide)
  obtain ⟨u1, hexec1, -, hctx1, -, hother1, hbuf1, -⟩ := exec_of_effect_setCtx hinit (by decide)
  obtain ⟨u2, hexec2, -, hctx2, -, hother2, -⟩ :=
    exec_of_effect_setCtx (xofAbsorb_effect h (by rw [hctx1]) ((readBytes_congr hbuf1 a 48).trans hbs)) (by decide)
  obtain ⟨u3, hexec3, -, hctx3, -, hother3, -⟩ :=
    exec_of_effect_setCtx (xofFinal_effect (show u2.ctx[c].mode = .absorb by rw [hctx2])) (by decide)
  have hhash : runCommands (pseudoXofHash c a 48) s = .next u3 := by
    rw [pseudoXofHash, runCommands_cons hexec1, runCommands_cons hexec2, runCommands_cons hexec3, runCommands]
  refine ⟨t, u3, hseed, hhash, ctx_ext fun d => ?_⟩
  by_cases hd : d = c
  · rw [hd, hctx, hctx3, hctx2, hctx1, List.nil_append]
  · rw [hother d hd, hother3 d hd, hother2 d hd, hother1 d hd]

/-! ### The output stream and the sponge (R140, R150 to R154) -/

/-- What a context has put out and what it puts out over these lengths is one stream, from any output position. -/
theorem shake256_append_squeezeAll (ls : List Nat) (x : XofCtx) :
    shake256 x.msg x.out ++ XofCtx.squeezeAll ls x = shake256 x.msg (x.out + ls.sum) := by
  induction ls generalizing x with
  | nil => simp [XofCtx.squeezeAll]
  | cons l ls ih =>
    have hrest := ih (x.advance l)
    simp only [XofCtx.advance] at hrest
    rw [XofCtx.squeezeAll, ← List.append_assoc, shake256_append_nextBytes, XofCtx.advance, hrest, List.sum_cons,
      Nat.add_assoc]

/-- Settles O27: at output position 0 nothing has been put out before. -/
theorem squeezedStreamIsShake : Obligations.SqueezedStreamIsShake := by
  intro x ls _ hout
  have hstream := shake256_append_squeezeAll ls x
  rwa [hout, List.length_eq_zero_iff.1 (shake256_length x.msg 0), List.nil_append, Nat.zero_add] at hstream

/-- The sponge behind a context that a command leaves, where that command writes its context alone. -/
theorem exec_setCtx_sponge {i : Instr} {s : State} {c : CtxId} {x : XofCtx} {r : Nat} {p : Sponge}
    (h : Effect i s (s.setCtx c x) r) (hp : x.sponge = p) : ∃ t, exec i s = .next t ∧ t.ctx[c].sponge = p :=
  ⟨_, exec_of_effect h, (congrArg XofCtx.sponge (setCtx_ctx_self s c x)).trans hp⟩

theorem XofCtx.sponge_of_absorb {x : XofCtx} (h : x.mode = .absorb) : x.sponge = Sponge.zero.absorb x.msg := by
  rw [XofCtx.sponge, h]

/-- Settles O28: each command's context, seen as a sponge, is the concrete operation on the sponge before it. -/
theorem spongeFollowsTheCommands : Obligations.SpongeFollowsTheCommands := by
  intro c s
  refine ⟨?_, ?_, fun a l bs h hmode hbs => ?_, fun hmode => ?_, fun a l h hmode hwf => ?_, fun a bs h hbs => ?_⟩
  · exact exec_setCtx_sponge (i := .xofInit c) ⟨rfl, rfl⟩ rfl
  · exact exec_setCtx_sponge (i := .xofClear c) ⟨rfl, rfl⟩ cleared_sponge
  · refine exec_setCtx_sponge (xofAbsorb_effect h hmode hbs) ?_
    rw [XofCtx.sponge_of_absorb hmode, ← absorb_append]
    rfl
  · refine exec_setCtx_sponge (xofFinal_effect hmode) ?_
    rw [XofCtx.sponge_of_absorb hmode]
    rfl
  · obtain ⟨t, hexec, -, hbuf, hctx, -⟩ := exec_xofSqueeze_next h hmode
    refine ⟨t, hexec, ?_, ?_⟩
    · rw [exec_xofSqueeze_read hbuf hwf, nextBytes_eq_squeeze _ hmode]
    · rw [hctx, advance_sponge _ hmode]
  · exact exec_setCtx_sponge (xofSeed_effect h hbs) rfl

/-- Settles O29: squeezing more bytes only adds bytes at the end (`shake256_add`). -/
theorem shakeOutputsArePrefixes : Obligations.ShakeOutputsArePrefixes := by
  intro M L L' h
  obtain ⟨bs, hbs⟩ := shake256_add M L (L' - L)
  rw [Nat.add_sub_cancel' h] at hbs
  exact ⟨shake256_length M L, bs, hbs.symm⟩

end Sys2Proof.Machine

/-! COMP.DEC and the round trips of the codec (41_codec.md R175, R182, R183). -/

namespace Sys2Proof.Machine

/-! ### COMP.DEC -/

/-- The decoder refuses every stream that is no encoded vector (`compDecode_some`). -/
theorem compDecode_eq_none {bs : List Byte} (h : ∀ v, GoodVector v → compEncode v ≠ bs) : compDecode 1024 bs = none := by
  cases hv : compDecode 1024 bs with
  | none => rfl
  | some v =>
    obtain ⟨hlen, hrange, hstream⟩ := compDecode_some 1024 bs v hv
    exact absurd hstream (h v ⟨hlen, hrange⟩)

theorem compDecode_of_goodVector {v : List Coef} (h : GoodVector v) : compDecode 1024 (compEncode v) = some v := by
  obtain ⟨hlen, hrange⟩ := h
  have hdecode := compDecode_compEncode v hrange
  rwa [hlen] at hdecode

section
variable {a l : Nat} {s : State} {bs : List Byte} {v : List Coef}

theorem compDec_effect (h : a + l ≤ 4096) (hbs : s.buf.readBytes a l = some bs) (hv : GoodVector v)
    (hstream : compEncode v = bs) : Effect (.compDec a l) s { s with coef := s.coef.writeCoefs v } l :=
  ⟨h, bs, v, hbs, hstream ▸ compDecode_of_goodVector hv, rfl, rfl⟩

theorem exec_compDec_format (h : a + l ≤ 4096) (hbs : s.buf.readBytes a l = some bs)
    (hnone : ∀ v, GoodVector v → compEncode v ≠ bs) : exec (.compDec a l) s = raiseErr .format s := by
  simp [exec, execCompDec, (inBuf_iff a l).2 h, hbs, compDecode_eq_none hnone]

end

/-- Settles O30: what is no encoded vector is refused (`compDecode_eq_none`), and a stream of fewer than 1152 or more than
3072 bytes is none. -/
theorem compDecAcceptsExactlyEncodedVectors : Obligations.CompDecAcceptsExactlyEncodedVectors := by
  refine ⟨fun a l s bs hl h hbs => ?_, fun a l s h => exec_region_range h (by simp) s,
    fun w hop => region_word hop (by decide) rfl⟩
  have hformat : (∀ v, GoodVector v → compEncode v ≠ bs) → FailsWith .format (exec (.compDec a l) s) s := by
    intro hnone
    rw [exec_compDec_format h hbs hnone]
    exact raiseErr_failsWith .format s (by decide)
  refine ⟨fun v hv hstream hwf => exec_of_effect_writeCoefs (compDec_effect h hbs hv hstream) hl hwf hv.1, hformat,
    fun hlen => hformat ?_⟩
  rintro v ⟨hv, hrange⟩ rfl
  have hbounds := compEncode_length_bounds v hv hrange
  have hread := ((readBytes_eq_some_iff _ _ _ _).1 hbs).1
  omega

/-! ### The two round trips (R182) -/

/-- A command that leaves ERR = 0 took effect. -/
theorem effect_of_err_eq_zero {i : Instr} {s t : State} (h : exec i s = .next t) (herr : statusErr t.status = 0) :
    ∃ u r, Effect i s u r ∧ t = { u.complete .ok with result := resultWord r } := by
  obtain ⟨e, he, rfl⟩ | heffect := exec_next_cases i s t h
  · rw [complete_status, statusErr_complete] at herr
    exact absurd herr (StatusCode.bits_ne_zero he)
  · exact heffect

section
variable {a l : Nat} {s : State} {v : List Coef}

theorem ctEnc_effect (h : a + l ≤ 4096) (hl : 1536 ≤ l) (hv : s.coef.readCoefs = some v)
    (hrange : ∀ x ∈ v, coefInRange x = true) :
    Effect (.ctEnc a l) s { s with buf := s.buf.writeBytes a (ctEncode v) } 1536 :=
  ⟨h, hl, v, hv, List.all_eq_true.2 hrange, rfl, rfl⟩

theorem compEnc_effect (h : a + l ≤ 4096) (hl : (compEncode v).length ≤ l) (hv : s.coef.readCoefs = some v)
    (hrange : ∀ x ∈ v, coefInRange x = true) :
    Effect (.compEnc a l) s { s with buf := s.buf.writeBytes a (compEncode v) } (compEncode v).length :=
  ⟨h, v, hv, List.all_eq_true.2 hrange, hl, rfl, rfl⟩

/-- What COMP.DEC leaves with ERR = 0: COEF is the vector whose stream the region holds, and BUF is as before. -/
theorem compDec_of_err_eq_zero {t : State} (hwf : s.coef.wf = true) (h : exec (.compDec a l) s = .next t)
    (herr : statusErr t.status = 0) :
    ∃ v, GoodVector v ∧ s.buf.readBytes a l = some (compEncode v) ∧ t.coef.readCoefs = some v ∧ t.buf = s.buf := by
  obtain ⟨u, r, heffect, rfl⟩ := effect_of_err_eq_zero h herr
  obtain ⟨-, bs, v, hbs, hdecode, rfl, -⟩ := heffect
  obtain ⟨hlen, hrange, rfl⟩ := compDecode_some 1024 bs v hdecode
  exact ⟨v, ⟨hlen, hrange⟩, hbs, readCoefs_writeCoefs _ _ hwf hlen, rfl⟩

/-- What CT.DEC leaves with ERR = 0, likewise. -/
theorem ctDec_of_err_eq_zero {t : State} (hwf : s.coef.wf = true) (h : exec (.ctDec a 1536) s = .next t)
    (herr : statusErr t.status = 0) :
    ∃ v, GoodVector v ∧ s.buf.readBytes a 1536 = some (ctEncode v) ∧ t.coef.readCoefs = some v ∧ t.buf = s.buf := by
  obtain ⟨u, r, heffect, rfl⟩ := effect_of_err_eq_zero h herr
  obtain ⟨-, -, bs, v, hbs, hdecode, rfl, -⟩ := heffect
  obtain ⟨hlen, hrange, rfl⟩ := ctDecode_some bs v ((readBytes_eq_some_iff _ _ _ _).1 hbs).1 hdecode
  exact ⟨v, ⟨hlen, hrange⟩, hbs, readCoefs_writeCoefs _ _ hwf hlen, rfl⟩

end

/-- Settles O37: COMP.ENC writes the stream of COEF, and COMP.DEC reads that stream back. -/
theorem compEncThenCompDecRestoresCoef : Obligations.CompEncThenCompDecRestoresCoef := by
  intro a l s v m hl h hbuf hm hv hrange hfits
  have hgood : GoodVector v := ⟨(readCoef?_of_readCoefs _ _ hv).1, hrange⟩
  obtain ⟨t, henc, hsucc, ⟨hread, -⟩, -⟩ :=
    exec_of_effect_writeBytes (compEnc_effect h hfits hv hrange) (by omega) hbuf
  have hdecode : Effect (.compDec a (compEncode v).length) { t with coef := m }
      { t with coef := m.writeCoefs v } (compEncode v).length := compDec_effect (by omega) hread hgood rfl
  obtain ⟨u, hdec, hsucc', hcoef, -⟩ := exec_of_effect_writeCoefs hdecode (by omega) hm hgood.1
  exact ⟨t, u, henc, hsucc.result ▸ hdec, hsucc'.err, hcoef⟩

/-- Settles O38: CT.ENC writes the stream of COEF, and CT.DEC reads that stream back. -/
theorem ctEncThenCtDecRestoresCoef : Obligations.CtEncThenCtDecRestoresCoef := by
  intro a l s v m hl h hbuf hm hv hrange
  have hlen : v.length = 1024 := (readCoef?_of_readCoefs _ _ hv).1
  obtain ⟨t, henc, -, ⟨hread, -⟩, -⟩ :=
    exec_of_effect_writeBytes (ctEnc_effect h hl hv hrange) (by decide) hbuf
  rw [ctEncode_length v hlen] at hread
  have hdecode : Effect (.ctDec a 1536) { t with coef := m } { t with coef := m.writeCoefs v } 1536 :=
    ⟨by omega, rfl, ctEncode v, v, hread, ctDecode_ctEncode v hlen hrange, rfl, rfl⟩
  obtain ⟨u, hdec, hsucc, hcoef, -⟩ := exec_of_effect_writeCoefs hdecode (by decide) hm hlen
  exact ⟨t, u, henc, hdec, hsucc.err, hcoef⟩

/-- Settles O39: an accepted region is the stream of the vector it decodes to, and COMP.ENC writes that stream. -/
theorem compDecThenCompEncRewritesTheStream : Obligations.CompDecThenCompEncRewritesTheStream := by
  intro a l b k s t bs hbuf hcoef hbs hexec herr hlk hk h
  obtain ⟨v, ⟨-, hrange⟩, hstream, hv, hsame⟩ := compDec_of_err_eq_zero hcoef hexec herr
  obtain rfl : bs = compEncode v := Option.some.inj (hbs.symm.trans hstream)
  obtain rfl : (compEncode v).length = l := ((readBytes_eq_some_iff _ _ _ _).1 hbs).1
  obtain ⟨u, henc, hsucc, hwritten, -⟩ :=
    exec_of_effect_writeBytes (compEnc_effect h hlk hv hrange) (by omega) (hsame ▸ hbuf)
  exact ⟨u, henc, hsucc, hwritten⟩

/-- Settles O40: likewise for the constant-time stream. -/
theorem ctDecThenCtEncRewritesTheStream : Obligations.CtDecThenCtEncRewritesTheStream := by
  intro a b k s t bs hbuf hcoef hbs hexec herr hk h
  obtain ⟨v, ⟨-, hrange⟩, hstream, hv, hsame⟩ := ctDec_of_err_eq_zero hcoef hexec herr
  obtain rfl : bs = ctEncode v := Option.some.inj (hbs.symm.trans hstream)
  obtain ⟨u, henc, hsucc, hwritten, -⟩ :=
    exec_of_effect_writeBytes (ctEnc_effect h hk hv hrange) (by decide) (hsame ▸ hbuf)
  exact ⟨u, henc, hsucc, hwritten⟩

/-! ### CONVERT (R183) -/

theorem runCommands_singleton (i : Instr) (s : State) : runCommands [i] s = exec i s := by
  rw [runCommands]
  cases exec i s <;> rfl

/-- CONVERT's CT.ENC runs on what its COMP.DEC leaves, whether that has failed or not (R112). -/
theorem runCommands_pseudoConvert {src len dst : Nat} {s t : State} (h : exec (.compDec src len) s = .next t) :
    runCommands (pseudoConvert src len dst) s = exec (.ctEnc dst 1536) t :=
  (runCommands_cons h).trans (runCommands_singleton _ t)

/-- A COEF whose bytes read as before reads as before. -/
theorem CoefIs.of_sameCoef {v : List Coef} {s t : State} (hv : CoefIs v s) (h : SameCoef s t) : CoefIs v t := by
  obtain ⟨hwhole, hentries⟩ := hv
  refine ⟨?_, fun i hi => ?_⟩
  · rw [← hwhole, Memory.readCoefs, Memory.readCoefs, readBytes_congr h]
  · rw [← hentries i hi, Memory.readCoef?, Memory.readCoef?, readBytes_congr h]

/-- With COEF in range CT.ENC of 1536 bytes has no failure left but RANGE. -/
theorem ctEnc_err_ne_value {dst : Nat} {t u : State} {v : List Coef} (hv : t.coef.readCoefs = some v)
    (hrange : ∀ x ∈ v, coefInRange x = true) (h : exec (.ctEnc dst 1536) t = .next u) :
    statusErr u.status ≠ StatusCode.value.bits := by
  by_cases hdst : dst + 1536 ≤ 4096
  · rw [exec_of_effect (ctEnc_effect hdst (Nat.le_refl _) hv hrange)] at h
    cases h
    simp [StatusCode.bits]
  · obtain ⟨u', hu', hfailed⟩ := exec_region_range (i := .ctEnc dst 1536) (Nat.lt_of_not_le hdst) (by simp) t
    cases h.symm.trans hu'
    rw [hfailed.err]
    decide

/-- Settles O41: COMP.DEC leaves in COEF the vector that CT.ENC then encodes, or the COEF it found. -/
theorem convertReencodesTheVector : Obligations.ConvertReencodesTheVector := by
  refine ⟨fun src len dst s v bs hbuf hcoef hlen h hbs hv hstream => ?_, fun src len dst s t u hcoef hexec herr henc => ?_,
    fun src len dst s t hexec herr => ?_⟩
  · have heffect := compDec_effect h hbs hv hstream
    obtain ⟨t, hdec, hsuccDec, hcoefIs, hbufSame⟩ : ∃ t, exec (.compDec src len) s = .next t ∧ Succeeded len s t ∧
        CoefIs v t ∧ t.buf = s.buf :=
      ⟨_, exec_of_effect heffect, heffect.succeeded hlen, coefIs_of_writeCoefs hcoef hv.1 rfl, rfl⟩
    refine ⟨t, hdec, hsuccDec, fun hdst => ?_, fun hdst => exec_region_range hdst (by simp) t⟩
    obtain ⟨u, henc, hsucc, hwritten, -, hcoefSame⟩ :=
      exec_of_effect_writeBytes (ctEnc_effect hdst (Nat.le_refl _) hcoefIs.1 hv.2) (by decide) (hbufSame ▸ hbuf)
    rw [BufWritten, hbufSame] at hwritten
    exact ⟨u, henc, (runCommands_pseudoConvert hdec).trans henc, hsucc, hcoefIs.of_sameCoef hcoefSame, hwritten⟩
  · obtain ⟨v, ⟨-, hrange⟩, -, hv, -⟩ := compDec_of_err_eq_zero hcoef hexec herr
    exact ctEnc_err_ne_value hv hrange henc
  · refine ⟨?_, runCommands_pseudoConvert hexec⟩
    obtain ⟨e, -, rfl⟩ | ⟨u, r, -, rfl⟩ := exec_next_cases _ s t hexec
    · rfl
    · exact absurd (statusErr_complete .ok u.status) herr

end Sys2Proof.Machine

/-! COEF.ZERO (42_buffer.md R211) and WIPE.ALL (70_reset_and_hazards.md R262). -/

namespace Sys2Proof.Machine

/-- Settles O43: COEF.ZERO has no checks, and a word of it with a field that is not zero is one of R106's illegal words. -/
theorem coefZeroZeroesEveryEntry : Obligations.CoefZeroZeroesEveryEntry := by
  refine ⟨fun s hwf => ?_, fun w hop => ⟨?_, fun hne s => ?_⟩⟩
  · exact exec_of_effect_writeCoefs (i := .coefZero) ⟨rfl, rfl⟩ (by decide) hwf List.length_replicate
  · rintro ⟨hc, ha, hl⟩
    rw [decode, hop, hc, ha, hl]
    rfl
  · have hw : IllegalWord w := Or.inr (Or.inr (Or.inr ⟨hop, hne⟩))
    exact execWord_illegal_failsWith hw s

/-- The state WIPE.ALL leaves: its seven commands have no check that fails. -/
def wiped (s : State) : State :=
  { s with
    ctx := (((s.ctx.set 0 XofCtx.cleared).set 1 XofCtx.cleared).set 2 XofCtx.cleared).set 3 XofCtx.cleared
    buf := (s.buf.writeBytes 0 (List.replicate 4095 0)).writeBytes 4095 (List.replicate 1 0)
    coef := s.coef.writeCoefs (List.replicate 1024 0)
    status := (statusComplete .ok)^[7] s.status
    result := resultWord 0
    pending := none
    pc := s.pc + 7 }

theorem runCommands_pseudoWipeAll (s : State) : runCommands pseudoWipeAll s = .next (wiped s) := by
  have hclear (c : CtxId) (s : State) : exec (.xofClear c) s = done 0 (s.setCtx c XofCtx.cleared) := rfl
  have hbuf (a l : Nat) (h : a + l ≤ 4096) (s : State) :
      exec (.bufZero a l) s = done l { s with buf := s.buf.writeBytes a (List.replicate l 0) } :=
    exec_of_effect ⟨h, rfl, rfl⟩
  have hcoef (s : State) : exec .coefZero s = done 0 { s with coef := s.coef.writeCoefs (List.replicate 1024 0) } := rfl
  rw [pseudoWipeAll, runCommands_cons (hclear 0 _), runCommands_cons (hclear 1 _), runCommands_cons (hclear 2 _),
    runCommands_cons (hclear 3 _), runCommands_cons (hbuf 0 4095 (by decide) _),
    runCommands_cons (hbuf 4095 1 (by decide) _), runCommands_cons (hcoef _)]
  rfl

theorem wiped_ctx (s : State) (c : CtxId) : (wiped s).ctx[c] = XofCtx.cleared := by
  have hctx : (wiped s).ctx = (((s.ctx.set 0 XofCtx.cleared).set 1 XofCtx.cleared).set 2 XofCtx.cleared).set 3
      XofCtx.cleared := rfl
  rw [hctx]
  fin_cases c <;> simp

/-- The two regions of zeros, of 4095 bytes and of one, are all of BUF. -/
theorem wiped_buf {s : State} (hwf : s.buf.wf = true) {a : Nat} (ha : a < 4096) : (wiped s).buf.read? a = some 0 := by
  have hbuf : (wiped s).buf = s.buf.writeBytes 0 (List.replicate 4096 0) := by
    have happend := writeBytes_append s.buf 0 (List.replicate 4095 0) (List.replicate 1 0) hwf
    rwa [List.length_replicate, List.replicate_append_replicate] at happend
  have hread := read?_writeBytes_of_inside s.buf 0 (List.replicate 4096 0) hwf a (by rwa [List.length_replicate])
  rw [hbuf, ← Nat.zero_add a, hread, List.getElem?_replicate_of_lt ha]

theorem wiped_coef {s : State} (hwf : s.coef.wf = true) {i : Nat} (hi : i < 1024) :
    (wiped s).coef.readCoef? i = some 0 := by
  have hcoef : CoefIs (List.replicate 1024 0) (wiped s) := coefIs_of_writeCoefs hwf List.length_replicate rfl
  rw [hcoef.2 i (by rwa [List.length_replicate]), List.getElem_replicate]

theorem reserved_iterate_complete {st : Word} (h : st &&& ~~~statusMask = 0#32) (n : Nat) :
    (statusComplete .ok)^[n] st &&& ~~~statusMask = 0#32 := by
  induction n with
  | zero => exact h
  | succ n ih =>
    rw [Function.iterate_succ_apply']
    exact reserved_complete ih

/-- After a success only ANYERR and DROP can be set, and the host's write of 0x300 clears both (R41, R221). -/
theorem statusWrite_complete_eq_zero {st : Word} (h : st &&& ~~~statusMask = 0#32) :
    statusWrite 0x00000300 (statusComplete .ok st) = 0x00000000 := by
  apply BitVec.eq_of_getLsbD_eq
  intro k hk
  by_cases h8 : k = 8
  · subst h8
    exact (statusAnyErr_write 0x00000300 _).trans (by simp)
  by_cases h9 : k = 9
  · subst h9
    exact (statusDrop_write 0x00000300 _).trans (by simp)
  rw [statusWrite_bit_other _ _ h8 h9, statusComplete_bit _ _ _ hk, if_neg h8]
  split
  · simp
  · split
    · simp [StatusCode.bits]
    · rename_i h0 herr
      rw [(reserved_iff st).1 h k hk ((statusMask_bit_false_iff hk).2 ⟨h0, herr, h8, h9⟩)]
      simp

theorem hostAccess_write_status (v : Word) (s : State) :
    hostAccess (.write .w32 0x0004 v) s = .next { s with status := statusWrite v s.status } := rfl

/-- Settles O44: `wiped` holds zeros everywhere, and the host's write clears what is left of STATUS. -/
theorem wipeAllLeavesAZeroBlock : Obligations.WipeAllLeavesAZeroBlock := by
  intro s hs
  refine ⟨wiped s, _, runCommands_pseudoWipeAll s, hostAccess_write_status _ _, wiped_ctx s, fun _ => wiped_buf hs.bufWf,
    fun _ => wiped_coef hs.coefWf, ?_, rfl⟩
  exact statusWrite_complete_eq_zero (reserved_iterate_complete hs.statusReserved 6)

end Sys2Proof.Machine

/-! Reading what nobody has written (10_state.md R48), and the host window (20_memory.md R70 to R81): each access by the
place it goes to. -/

namespace Sys2Proof.Machine

/-! ### The commands that read storage -/

section
variable {c : CtxId} {a l : Nat} {s : State}

theorem exec_xofAbsorb_fault (h : a + l ≤ 4096) (hmode : s.ctx[c].mode = .absorb) (hnone : s.buf.readBytes a l = none) :
    exec (.xofAbsorb c a l) s = .fault .unwrittenBuf := by
  simp [exec, execXofAbsorb, (inBuf_iff a l).2 h, hmode, hnone, -Fin.getElem_fin]

theorem exec_xofSeed_fault (h : a + 48 ≤ 4096) (hnone : s.buf.readBytes a 48 = none) :
    exec (.xofSeed c a 48) s = .fault .unwrittenBuf := by
  simp [exec, execXofSeed, (inBuf_iff a 48).2 h, hnone]

theorem exec_compDec_fault (h : a + l ≤ 4096) (hnone : s.buf.readBytes a l = none) :
    exec (.compDec a l) s = .fault .unwrittenBuf := by
  simp [exec, execCompDec, (inBuf_iff a l).2 h, hnone]

theorem exec_ctDec_fault (h : a + 1536 ≤ 4096) (hnone : s.buf.readBytes a 1536 = none) :
    exec (.ctDec a 1536) s = .fault .unwrittenBuf := by
  simp [exec, execCtDec, (inBuf_iff a 1536).2 h, hnone]

theorem exec_encoder_fault (h : a + l ≤ 4096) (hnone : s.coef.readCoefs = none) :
    exec (.ctEnc a l) s = .fault .unwrittenCoef ∧ exec (.compEnc a l) s = .fault .unwrittenCoef := by
  simp [exec, execCtEnc, execCompEnc, (inBuf_iff a l).2 h, hnone]

end

/-! ### Host accesses to BUF and COEF -/

section
variable {w : Width} {a : Nat} {s : State}

theorem hostRead_buf (h : a + w.bytes ≤ 4096) (hw : StorageAccess w a) :
    hostAccess (.read w (0x1000 + a)) s = readStorage s.buf .unwrittenBuf w a s := by
  simp only [hostAccess, hostRead, place_buf w a h hw]

theorem hostRead_coef (h : a + w.bytes ≤ 2048) (hw : StorageAccess w a) :
    hostAccess (.read w (0x2000 + a)) s = readStorage s.coef .unwrittenCoef w a s := by
  simp only [hostAccess, hostRead, place_coef w a h hw]

theorem hostWrite_buf (h : a + w.bytes ≤ 4096) (hw : StorageAccess w a) (hbusy : statusBusy s.status = false) (v : Word) :
    hostAccess (.write w (0x1000 + a) v) s = .next { s with buf := s.buf.writeBytes a (leBytes w.bytes v) } := by
  simp [hostAccess, hostWrite, place_buf w a h hw, hbusy]

theorem hostWrite_coef (h : a + w.bytes ≤ 2048) (hw : StorageAccess w a) (hbusy : statusBusy s.status = false)
    (v : Word) :
    hostAccess (.write w (0x2000 + a) v) s = .next { s with coef := s.coef.writeBytes a (leBytes w.bytes v) } := by
  simp [hostAccess, hostWrite, place_coef w a h hw, hbusy]

theorem readStorage_none {m : Memory} {f : Fault} (hbusy : statusBusy s.status = false)
    (hnone : m.readBytes a w.bytes = none) : readStorage m f w a s = .fault f := by
  simp [readStorage, hbusy, hnone]

theorem readStorage_some {m : Memory} {f : Fault} {bs : List Byte} (hbusy : statusBusy s.status = false)
    (hbs : m.readBytes a w.bytes = some bs) :
    readStorage m f w a s = .next { s with busData := some (leWord bs) } := by
  simp [readStorage, hbusy, hbs, answerRead]

end

/-- Settles O45: each of these commands and reads reaches its read with no check failed, and the read finds a byte with no
value (`readBytes_eq_none_iff`, `readCoefs_eq_none`). -/
theorem unwrittenStorageFaults : Obligations.UnwrittenStorageFaults := by
  have hnone : ∀ {m : Memory} {a n : Nat}, (∃ k < n, m.read? (a + k) = none) → m.readBytes a n = none :=
    (readBytes_eq_none_iff _ _ _).2
  refine ⟨fun c a l s h hmode hk => exec_xofAbsorb_fault h hmode (hnone hk),
    fun c a s h hk => exec_xofSeed_fault h (hnone hk), fun a l s h hk => exec_compDec_fault h (hnone hk),
    fun a s h hk => exec_ctDec_fault h (hnone hk), ?_, fun w a s hw hbusy => ⟨fun h hk => ?_, fun h hk => ?_⟩⟩
  · rintro a l s h ⟨i, hi, hentry⟩
    exact exec_encoder_fault h (readCoefs_eq_none _ i hi hentry)
  · rw [hostRead_buf h hw, readStorage_none hbusy (hnone hk)]
  · rw [hostRead_coef h hw, readStorage_none hbusy (hnone hk)]

/-! ### The registers -/

theorem hostAccess_write_cmd (w : Word) (s : State) :
    hostAccess (.write .w32 0x0000 w) s = .next (writeCmd w s) := rfl

theorem writeCmd_of_idle (w : Word) {s : State} (h : statusBusy s.status = false) : writeCmd w s = acceptCmd w s := by
  rw [writeCmd, h]
  rfl

/-- Settles O46: the word is accepted or dropped by BUSY alone. -/
theorem cmdWriteIsAcceptedOrDropped : Obligations.CmdWriteIsAcceptedOrDropped := by
  refine fun w s => ⟨fun hbusy => ?_, fun hbusy => ?_⟩
  · refine ⟨acceptCmd w s, ?_, rfl, statusBusy_accept _, statusErr_accept _, statusAnyErr_accept _, statusDrop_accept _⟩
    rw [hostAccess_write_cmd, writeCmd_of_idle w hbusy]
  · refine ⟨{ s with status := statusDropped s.status }, ?_, rfl, (statusBusy_dropped _).trans hbusy,
      statusErr_dropped _, statusAnyErr_dropped _, statusDrop_dropped _⟩
    rw [hostAccess_write_cmd, writeCmd_of_busy w hbusy]

/-- Settles O47: the write changes STATUS alone, bit by bit as `statusWrite_bit` says. -/
theorem statusWriteClearsByOnes : Obligations.StatusWriteClearsByOnes := fun v s =>
  ⟨_, hostAccess_write_status v s, rfl, statusAnyErr_write v _, statusDrop_write v _,
    fun _ => statusWrite_bit_other v s.status⟩

theorem xstat_high (s : State) : (xstat s).extractLsb' 8 24 = 0 := by
  apply BitVec.eq_of_getLsbD_eq
  intro k _
  rw [xstat, BitVec.getLsbD_extractLsb', BitVec.getLsbD_append, BitVec.getLsbD_append, BitVec.getLsbD_append,
    BitVec.getLsbD_append, if_neg (by omega), if_neg (by omega), if_neg (by omega), if_neg (by omega)]
  simp

/-- Settles O48: the registers' offsets are theirs (`place`), and XSTAT shows each mode (`xstatField_eq`). -/
theorem registersReadAndIgnoreWrites : Obligations.RegistersReadAndIgnoreWrites := by
  refine fun s => ⟨rfl, rfl, rfl, rfl, ⟨xstat s, rfl, xstat_high s, fun c => ?_⟩, fun v => ⟨rfl, rfl, rfl⟩⟩
  refine (xstatField_eq c s).trans ?_
  cases s.ctx[c].mode <;> rfl

/-- Settles O49: an access that reaches no register, no BUF and no COEF byte is one to reserved offsets. -/
theorem reservedOffsetsReadZeroAndIgnoreWrites : Obligations.ReservedOffsetsReadZeroAndIgnoreWrites := by
  intro w o s h
  have hplace := place_reserved w o h
  exact ⟨by simp only [hostAccess, hostRead, hplace, answerRead], fun v => by simp only [hostAccess, hostWrite, hplace]⟩

/-! ### What an access leaves as it was (R81) -/

theorem readStorage_next {m : Memory} {f : Fault} {w : Width} {a : Nat} {s t : State}
    (h : readStorage m f w a s = .next t) : t = { s with busData := t.busData } := by
  rw [readStorage] at h
  split at h
  · cases h
  · split at h
    · cases h
    · cases h
      rfl

theorem hostAccess_read_next {w : Width} {o : Nat} {s t : State} (h : hostAccess (.read w o) s = .next t) :
    t = { s with busData := t.busData } := by
  simp only [hostAccess, hostRead] at h
  split at h
  · cases h
  · cases h
    rfl
  · exact readStorage_next h
  · exact readStorage_next h
  · cases h
    rfl

/-- Settles O54: every branch of a read ends in `answerRead` or a stop; what a write can do is `hostAccess_next_cases`. -/
theorem hostAccessesHaveNoOtherEffect : Obligations.HostAccessesHaveNoOtherEffect := by
  refine ⟨fun w o s t h => hostAccess_read_next h, fun w o v s t h => ?_⟩
  obtain ⟨d, rfl⟩ | ⟨r, d, rfl⟩ | ⟨a, bs, -, -, rfl⟩ | ⟨a, bs, -, -, rfl⟩ | rfl := hostAccess_next_cases _ s t h
  · exact ⟨rfl, rfl, rfl⟩
  · obtain ⟨hctx, -, -, hresult, hpc, -, -⟩ := writeReg_frame r d s
    exact ⟨hctx, hresult, hpc⟩
  · exact ⟨rfl, rfl, rfl⟩
  · exact ⟨rfl, rfl, rfl⟩
  · exact ⟨rfl, rfl, rfl⟩

end Sys2Proof.Machine

/-! The bytes and the entries of the host's accesses to BUF and COEF (20_memory.md R72 to R74). -/

namespace Sys2Proof.Machine

/-! ### Words and bytes -/

theorem StorageAccess.bytes_le {w : Width} {o : Nat} (h : StorageAccess w o) : w.bytes ≤ 4 := by
  obtain ⟨hw, -⟩ := h
  cases w with
  | w8 | w16 | w32 => decide
  | w64 => exact absurd rfl hw

theorem leBytes_getElem? {n k : Nat} (v : Word) (hk : k < n) : (leBytes n v)[k]? = some (v.extractLsb' (8 * k) 8) := by
  simp [leBytes, hk]

theorem leWord_cons_bit (b : Byte) (bs : List Byte) {k : Nat} (hk : k < 32) :
    (leWord (b :: bs)).getLsbD k = if k < 8 then b.getLsbD k else (leWord bs).getLsbD (k - 8) := by
  rw [leWord, BitVec.getLsbD_or, BitVec.getLsbD_shiftLeft, BitVec.getLsbD_setWidth]
  by_cases h : k < 8
  · simp [hk, h]
  · simp [hk, h, BitVec.getLsbD_of_ge b k (by omega)]

theorem leWord_one (b : Byte) : leWord [b] = b.setWidth 32 := by simp [leWord]

theorem leWord_two (lo hi : Byte) : leWord [lo, hi] = (hi ++ lo : Coef).setWidth 32 := by
  apply BitVec.eq_of_getLsbD_eq
  intro k hk
  rw [leWord_cons_bit _ _ hk, BitVec.getLsbD_setWidth, BitVec.getLsbD_append, leWord_one, BitVec.getLsbD_setWidth]
  by_cases h : k < 8
  · simp [hk, h]
  · simp [hk, h, show k - 8 < 32 by omega]

/-- Four bytes make a word of the two entries they make (R73, R74). -/
theorem leWord_four (lo₀ hi₀ lo₁ hi₁ : Byte) : leWord [lo₀, hi₀, lo₁, hi₁] = (hi₁ ++ lo₁ : Coef) ++ (hi₀ ++ lo₀ : Coef) := by
  apply BitVec.eq_of_getLsbD_eq
  intro k hk
  rw [leWord_cons_bit _ _ hk, BitVec.getLsbD_append, BitVec.getLsbD_append]
  by_cases h : k < 8
  · simp [h, show k < 16 by omega]
  rw [leWord_cons_bit _ _ (by omega), leWord_two, BitVec.getLsbD_setWidth, show k - 8 - 8 = k - 16 by omega]
  by_cases h' : k < 16
  · simp [h, h', show k - 8 < 8 by omega]
  · simp [h, h', show ¬ k - 8 < 8 by omega, show k - 16 < 32 by omega]

/-- The two bytes of an entry cut out of a word. -/
theorem extract_entry (v : Word) (p : Nat) :
    (v.extractLsb' p 16).extractLsb' 0 8 = v.extractLsb' p 8 ∧
      (v.extractLsb' p 16).extractLsb' 8 8 = v.extractLsb' (p + 8) 8 := by
  constructor <;> apply BitVec.eq_of_getLsbD_eq <;> intro k hk
  · simp [hk, show k < 16 by omega]
  · simp [hk, show 8 + k < 16 by omega, Nat.add_assoc]

/-! ### By bytes -/

/-- A write of a word's low bytes: those bytes, lowest first, and every other byte as before. -/
theorem read?_writeBytes_leBytes {m : Memory} (hwf : m.wf = true) (a n : Nat) (v : Word) :
    (∀ k < n, (m.writeBytes a (leBytes n v)).read? (a + k) = some (v.extractLsb' (8 * k) 8)) ∧
      ∀ k, k < a ∨ a + n ≤ k → (m.writeBytes a (leBytes n v)).read? k = m.read? k := by
  refine ⟨fun k hk => ?_, fun k hk => ?_⟩
  · rw [read?_writeBytes_of_inside _ _ _ hwf k (by rwa [leBytes_length]), leBytes_getElem? v hk]
  · exact read?_writeBytes_of_outside _ _ _ hwf k (by rwa [leBytes_length])

section
variable {w : Width} {a : Nat} {s : State} (h : a + w.bytes ≤ 2048) (hw : StorageAccess w a)
  (hbusy : statusBusy s.status = false)
include h hw hbusy

theorem hostWrite_coef_next (hwf : s.coef.wf = true) (v : Word) :
    ∃ t, hostAccess (.write w (0x2000 + a) v) s = .next t ∧ t = { s with coef := t.coef } ∧
      (∀ k < w.bytes, t.coef.read? (a + k) = some (v.extractLsb' (8 * k) 8)) ∧
      ∀ k, k < a ∨ a + w.bytes ≤ k → t.coef.read? k = s.coef.read? k :=
  ⟨_, hostWrite_coef h hw hbusy v, rfl, read?_writeBytes_leBytes hwf a w.bytes v⟩

theorem hostRead_coef_next {bs : List Byte} (hbs : s.coef.readBytes a w.bytes = some bs) :
    hostAccess (.read w (0x2000 + a)) s = .next { s with busData := some (leWord bs) } := by
  rw [hostRead_coef h hw, readStorage_some hbusy hbs]

end

/-- What a read of as many bytes as a word has answers. -/
theorem leWord_of_readBytes {m : Memory} {a n : Nat} {bs : List Byte} (hn : n ≤ 4) (hbs : m.readBytes a n = some bs) :
    (∀ k < n, bs[k]? = some ((leWord bs).extractLsb' (8 * k) 8)) ∧ (leWord bs).toNat < 2 ^ (8 * n) := by
  obtain rfl : bs.length = n := ((readBytes_eq_some_iff _ _ _ _).1 hbs).1
  exact leWord_spec bs hn

/-- Settles O52: the bytes written are the word's (`leBytes`), and the word read is the bytes' (`leWord_spec`). -/
theorem bufWindowIsLittleEndian : Obligations.BufWindowIsLittleEndian := by
  intro w a s h hw hbusy hwf
  refine ⟨fun v => ⟨_, hostWrite_buf h hw hbusy v, rfl, read?_writeBytes_leBytes hwf a w.bytes v⟩,
    fun bs hbs => ⟨leWord bs, ?_, leWord_of_readBytes hw.bytes_le hbs⟩⟩
  rw [hostRead_buf h hw, readStorage_some hbusy hbs]

/-! ### By entries of COEF -/

/-- An entry outside the bytes a write touches reads as before. -/
theorem readCoef?_of_outside {m m' : Memory} {a n : Nat} (hsame : ∀ k, k < a ∨ a + n ≤ k → m'.read? k = m.read? k)
    {j : Nat} (hj : 2 * j + 1 < a ∨ a + n ≤ 2 * j) : m'.readCoef? j = m.readCoef? j := by
  apply Option.ext
  intro x
  rw [readCoef?_eq_some_iff, readCoef?_eq_some_iff, hsame (2 * j) (by omega), hsame (2 * j + 1) (by omega)]

section
variable {i : Nat} {s : State} (hbusy : statusBusy s.status = false) (hwf : s.coef.wf = true)
include hbusy hwf

theorem hostWrite_entry (hi : i < 1024) (v : Word) :
    ∃ t, hostAccess (.write .w16 (0x2000 + 2 * i) v) s = .next t ∧ t.coef.readCoef? i = some (v.extractLsb' 0 16) ∧
      ∀ j, j ≠ i → t.coef.readCoef? j = s.coef.readCoef? j := by
  have hw : StorageAccess .w16 (2 * i) := ⟨by decide, Nat.mul_mod_right 2 i⟩
  obtain ⟨t, hexec, -, hbytes, hsame⟩ := hostWrite_coef_next (show 2 * i + 2 ≤ 2048 by omega) hw hbusy hwf v
  obtain ⟨hlo, hhi⟩ := extract_entry v 0
  refine ⟨t, hexec, (readCoef?_eq_some_iff _ _ _).2 ⟨?_, ?_⟩, fun j hj => readCoef?_of_outside hsame ?_⟩
  · rw [hlo]
    exact hbytes 0 (by decide)
  · rw [hhi]
    exact hbytes 1 (by decide)
  · simp only [Width.bytes]
    omega

theorem hostWrite_entry_low (hi : i < 1024) (v : Word) {x : Coef} (hx : s.coef.readCoef? i = some x) :
    ∃ t, hostAccess (.write .w8 (0x2000 + 2 * i) v) s = .next t ∧
      t.coef.readCoef? i = some (x.extractLsb' 8 8 ++ v.extractLsb' 0 8) ∧
      ∀ j, j ≠ i → t.coef.readCoef? j = s.coef.readCoef? j := by
  have hw : StorageAccess .w8 (2 * i) := ⟨by decide, Nat.mod_one _⟩
  obtain ⟨t, hexec, -, hbytes, hsame⟩ := hostWrite_coef_next (show 2 * i + 1 ≤ 2048 by omega) hw hbusy hwf v
  obtain ⟨hlo, hhi⟩ := extract_join (x.extractLsb' 8 8) (v.extractLsb' 0 8)
  obtain ⟨-, hkept⟩ := (readCoef?_eq_some_iff _ _ _).1 hx
  refine ⟨t, hexec, (readCoef?_eq_some_iff _ _ _).2 ⟨?_, ?_⟩, fun j hj => readCoef?_of_outside hsame ?_⟩
  · rw [hlo]
    exact hbytes 0 (by decide)
  · rw [hhi]
    exact (hsame _ (Or.inr (Nat.le_refl _))).trans hkept
  · simp only [Width.bytes]
    omega

theorem hostWrite_entry_high (hi : i < 1024) (v : Word) {x : Coef} (hx : s.coef.readCoef? i = some x) :
    ∃ t, hostAccess (.write .w8 (0x2000 + 2 * i + 1) v) s = .next t ∧
      t.coef.readCoef? i = some (v.extractLsb' 0 8 ++ x.extractLsb' 0 8) ∧
      ∀ j, j ≠ i → t.coef.readCoef? j = s.coef.readCoef? j := by
  have hw : StorageAccess .w8 (2 * i + 1) := ⟨by decide, Nat.mod_one _⟩
  obtain ⟨t, hexec, -, hbytes, hsame⟩ := hostWrite_coef_next (show 2 * i + 1 + 1 ≤ 2048 by omega) hw hbusy hwf v
  obtain ⟨hlo, hhi⟩ := extract_join (v.extractLsb' 0 8) (x.extractLsb' 0 8)
  obtain ⟨hkept, -⟩ := (readCoef?_eq_some_iff _ _ _).1 hx
  refine ⟨t, hexec, (readCoef?_eq_some_iff _ _ _).2 ⟨?_, ?_⟩, fun j hj => readCoef?_of_outside hsame ?_⟩
  · rw [hlo, hsame _ (Or.inl (Nat.lt_succ_self _)), hkept]
  · rw [hhi]
    exact hbytes 0 (by decide)
  · simp only [Width.bytes]
    omega

theorem hostWrite_two_entries {k : Nat} (hk : 2 * k < 1024) (v : Word) :
    ∃ t, hostAccess (.write .w32 (0x2000 + 4 * k) v) s = .next t ∧
      t.coef.readCoef? (2 * k) = some (v.extractLsb' 0 16) ∧
      t.coef.readCoef? (2 * k + 1) = some (v.extractLsb' 16 16) ∧
      ∀ j, j ≠ 2 * k → j ≠ 2 * k + 1 → t.coef.readCoef? j = s.coef.readCoef? j := by
  have hw : StorageAccess .w32 (4 * k) := ⟨by decide, Nat.mul_mod_right 4 k⟩
  obtain ⟨t, hexec, -, hbytes, hsame⟩ := hostWrite_coef_next (show 4 * k + 4 ≤ 2048 by omega) hw hbusy hwf v
  obtain ⟨hlo₀, hhi₀⟩ := extract_entry v 0
  obtain ⟨hlo₁, hhi₁⟩ := extract_entry v 16
  refine ⟨t, hexec, (readCoef?_eq_some_iff _ _ _).2 ⟨?_, ?_⟩, (readCoef?_eq_some_iff _ _ _).2 ⟨?_, ?_⟩,
    fun j hj hj' => readCoef?_of_outside hsame ?_⟩
  · rw [hlo₀, show 2 * (2 * k) = 4 * k + 0 by omega]
    exact hbytes 0 (by decide)
  · rw [hhi₀, show 2 * (2 * k) + 1 = 4 * k + 1 by omega]
    exact hbytes 1 (by decide)
  · rw [hlo₁, show 2 * (2 * k + 1) = 4 * k + 2 by omega]
    exact hbytes 2 (by decide)
  · rw [hhi₁, show 2 * (2 * k + 1) + 1 = 4 * k + 3 by omega]
    exact hbytes 3 (by decide)
  · simp only [Width.bytes]
    omega

end

section
variable {i : Nat} {s : State} (hbusy : statusBusy s.status = false)
include hbusy

theorem hostRead_entry (hi : i < 1024) {x : Coef} (hx : s.coef.readCoef? i = some x) :
    hostAccess (.read .w16 (0x2000 + 2 * i)) s = .next { s with busData := some (x.setWidth 32) } ∧
      hostAccess (.read .w8 (0x2000 + 2 * i)) s = .next { s with busData := some ((x.extractLsb' 0 8).setWidth 32) } ∧
      hostAccess (.read .w8 (0x2000 + 2 * i + 1)) s =
        .next { s with busData := some ((x.extractLsb' 8 8).setWidth 32) } := by
  obtain ⟨hlo, hhi⟩ := (readCoef?_eq_some_iff _ _ _).1 hx
  have hboth : s.coef.readBytes (2 * i) 2 = some [x.extractLsb' 0 8, x.extractLsb' 8 8] := by
    simp [readBytes_succ, hlo, hhi]
  have hlow : s.coef.readBytes (2 * i) 1 = some [x.extractLsb' 0 8] := by simp [readBytes_succ, hlo]
  have hhigh : s.coef.readBytes (2 * i + 1) 1 = some [x.extractLsb' 8 8] := by simp [readBytes_succ, hhi]
  have hw : StorageAccess .w16 (2 * i) := ⟨by decide, Nat.mul_mod_right 2 i⟩
  have hw8 (a : Nat) : StorageAccess .w8 a := ⟨by decide, Nat.mod_one a⟩
  refine ⟨?_, ?_, ?_⟩
  · rw [hostRead_coef_next (show 2 * i + 2 ≤ 2048 by omega) hw hbusy hboth, leWord_two, coefToBytes_join]
  · rw [hostRead_coef_next (show 2 * i + 1 ≤ 2048 by omega) (hw8 _) hbusy hlow, leWord_one]
  · rw [Nat.add_assoc, hostRead_coef_next (show 2 * i + 1 + 1 ≤ 2048 by omega) (hw8 _) hbusy hhigh, leWord_one]

theorem hostRead_two_entries {k : Nat} (hk : 2 * k < 1024) {x y : Coef} (hx : s.coef.readCoef? (2 * k) = some x)
    (hy : s.coef.readCoef? (2 * k + 1) = some y) :
    hostAccess (.read .w32 (0x2000 + 4 * k)) s = .next { s with busData := some (y ++ x) } := by
  obtain ⟨hlo₀, hhi₀⟩ := (readCoef?_eq_some_iff _ _ _).1 hx
  obtain ⟨hlo₁, hhi₁⟩ := (readCoef?_eq_some_iff _ _ _).1 hy
  rw [show 2 * (2 * k) = 4 * k by omega] at hlo₀ hhi₀
  rw [show 2 * (2 * k + 1) = 4 * k + 1 + 1 by omega] at hlo₁ hhi₁
  have hbytes : s.coef.readBytes (4 * k) 4 =
      some [x.extractLsb' 0 8, x.extractLsb' 8 8, y.extractLsb' 0 8, y.extractLsb' 8 8] := by
    simp [readBytes_succ, hlo₀, hhi₀, hlo₁, hhi₁]
  have hw : StorageAccess .w32 (4 * k) := ⟨by decide, Nat.mul_mod_right 4 k⟩
  rw [hostRead_coef_next (show 4 * k + 4 ≤ 2048 by omega) hw hbusy hbytes, leWord_four, coefToBytes_join, coefToBytes_join]

end

/-- Settles O53: by bytes as for BUF; by entries, an access of one, two or four bytes is one of half an entry, one entry or
two (`readCoef?_eq_some_iff`). -/
theorem coefWindowHoldsTheEntries : Obligations.CoefWindowHoldsTheEntries := by
  refine ⟨fun w a s h hw hbusy hwf => ⟨hostWrite_coef_next h hw hbusy hwf, fun bs hbs =>
    ⟨leWord bs, hostRead_coef_next h hw hbusy hbs, leWord_of_readBytes hw.bytes_le hbs⟩⟩, fun i s hi hbusy hwf => ?_⟩
  refine ⟨hostWrite_entry hbusy hwf hi,
    fun v x hx => ⟨hostWrite_entry_low hbusy hwf hi v hx, hostWrite_entry_high hbusy hwf hi v hx⟩, ?_,
    fun x hx => hostRead_entry hbusy hi hx, ?_⟩
  · rintro v k rfl
    exact hostWrite_two_entries hbusy hwf hi v
  · rintro k x y rfl hx hy
    exact hostRead_two_entries hbusy hi hx hy

end Sys2Proof.Machine

/-! The assembler (30_encoding.md R110, R112): every operand it reads fits its field, so every command it makes is well
formed. -/

namespace Sys2Proof.Machine

/-- A number fits a field of 12 bits; a context always does. -/
def Operand.Fits : Operand → Prop
  | .context _ => True
  | .number n => n < 4096

theorem parseOperand_fits {cs : List Char} {op : Operand} (h : parseOperand cs = some op) : op.Fits := by
  unfold parseOperand at h
  split at h
  case h_5 =>
    split at h
    · cases h
    · split at h
      · rename_i hlt
        cases h
        exact hlt
      · cases h
  all_goals
    cases h
    trivial

theorem mapM_parseOperand_fits {ps : List (List Char)} {ops : List Operand} (h : ps.mapM parseOperand = some ops) :
    ∀ op ∈ ops, op.Fits := by
  induction ps generalizing ops with
  | nil =>
    cases h
    simp
  | cons p ps ih =>
    rw [List.mapM_cons] at h
    obtain ⟨op, hop, hrest⟩ := Option.bind_eq_some_iff.1 h
    obtain ⟨ops', hops, hcons⟩ := Option.bind_eq_some_iff.1 hrest
    cases hcons
    exact List.forall_mem_cons.2 ⟨parseOperand_fits hop, ih hops⟩

theorem parseOperands_fits {cs : List Char} {ops : List Operand} (h : parseOperands cs = some ops) :
    ∀ op ∈ ops, op.Fits := by
  unfold parseOperands at h
  split at h
  · cases h
    simp
  · exact mapM_parseOperand_fits h

/-- Every command a mnemonic stands for has operands of the line, or fixed ones that fit (R112). -/
theorem commandsOf_wellFormed {mnemonic : String} {ops : List Operand} {is : List Instr}
    (h : commandsOf mnemonic ops = some is) (hops : ∀ op ∈ ops, op.Fits) : ∀ i ∈ is, i.wellFormed = true := by
  unfold commandsOf at h
  split at h
  case h_18 => cases h
  all_goals
    cases h
    simp_all [Operand.Fits, Instr.wellFormed, fits12_iff, pseudoXofHash, pseudoXofWipe, pseudoConvert, pseudoCompEncSig,
      pseudoWipeAll]

theorem parseLine_wellFormed {cs : List Char} {is : List Instr} (h : parseLine cs = some is) :
    ∀ i ∈ is, i.wellFormed = true := by
  unfold parseLine at h
  split at h
  · cases h
    simp
  · split at h
    · cases h
    · rename_i hops
      exact commandsOf_wellFormed h (parseOperands_fits hops)

/-- Settles O55: the words are those of well-formed commands (`parseLine_wellFormed`), each of which decodes. -/
theorem assemblerEmitsOnlyLegalWords : Obligations.AssemblerEmitsOnlyLegalWords := by
  intro line ws h w hw
  obtain ⟨is, his, rfl⟩ := Option.map_eq_some_iff.1 h
  obtain ⟨i, hi, rfl⟩ := List.mem_map.1 hw
  have hfit : i.wellFormed = true := parseLine_wellFormed his i hi
  exact ⟨i, hfit, rfl, decode_encode hfit⟩

end Sys2Proof.Machine
